-- ==== Sys2Proof/Word.lean ====
section
/-! DEFINITION. The words of the unit's ports (10_state R20) and the command, the three input ports together (30_encoding R60). -/

namespace Sys2Proof

/-- A 16-bit Half word (10_state R25). -/
abbrev Half := BitVec 16

/-- A 32-bit Single word (10_state R26); also the width of the output port `y` (R20). -/
abbrev Single := BitVec 32

/-- What the three input ports carry for one command (10_state R20, 30_encoding R60). -/
structure Command where
  /-- operation select, `cmd[51:48]` -/
  op : BitVec 4
  /-- first operand, `cmd[47:16]` -/
  a : BitVec 32
  /-- second operand, `cmd[15:0]` -/
  b : BitVec 16
deriving DecidableEq, Repr

end Sys2Proof
end

