-- ==== Sys2Proof/Machine/Operands.lean ====
section
/-! DEFINITION. Every operand form of the unit: a bit slice of the command (30_encoding R63). -/

namespace Sys2Proof.Machine

/-- `a[15:0]`: the Half H2S widens, the left operand of the comparator (30_encoding R63). -/
def halfInA (c : Command) : Half := c.a.extractLsb' 0 16

/-- `a[31:0]`: the Single S2H narrows (30_encoding R63). -/
def singleInA (c : Command) : Single := c.a

/-- `b[15:0]`: the right operand of the comparator (30_encoding R63). -/
def halfInB (c : Command) : Half := c.b

end Sys2Proof.Machine
end

