-- ==== Sys2Proof/Syntax.lean ====
section
/-! DEFINITION. The nine operations with the operands they read (30_encoding R62, R63). -/

namespace Sys2Proof

/-- One constructor per row of opcode_table.json. The operands are the fields the operation READS (30_encoding R63); the
bits it does not read have no effect (R64) and are no part of the instruction (assumption 11). -/
inductive Instr where
  /-- op 0: widen a Half (40_bit_codec R82) -/
  | h2s (h : Half)
  /-- op 1: narrow a Single (40_bit_codec R90) -/
  | s2h (s : Single)
  /-- op 2: four-way compare (41_comparator R123) -/
  | cmp (ha hb : Half)
  /-- op 3: `==` (41_comparator R125) -/
  | feq (ha hb : Half)
  /-- op 4: `!=` (41_comparator R127) -/
  | fne (ha hb : Half)
  /-- op 5: `<` (41_comparator R128) -/
  | flt (ha hb : Half)
  /-- op 6: `>` (41_comparator R129) -/
  | fgt (ha hb : Half)
  /-- op 7: `<=` (41_comparator R130) -/
  | fle (ha hb : Half)
  /-- op 8: `>=` (41_comparator R131) -/
  | fge (ha hb : Half)
deriving DecidableEq, Repr

end Sys2Proof
end

