-- ==== Sys2Proof/WellFormed.lean ====
section
/-! DEFINITION. Which commands and instructions the unit gives a meaning (30_encoding R66, R67). -/

namespace Sys2Proof

/-- A command is legal when its op is 0 to 8; every op from 9 to 15 is reserved (30_encoding R67). -/
def Command.wf (c : Command) : Bool := decide (c.op.toNat ≤ 8)

/-- "Every command with `op` 0 to 8 is legal for every value of `a` and `b`" (30_encoding R67): the operand types carry
the operands' widths, so no further check is left for an instruction. -/
def Instr.wf : Instr → Bool
  | .h2s _ => true
  | .s2h _ => true
  | .cmp _ _ => true
  | .feq _ _ => true
  | .fne _ _ => true
  | .flt _ _ => true
  | .fgt _ _ => true
  | .fle _ _ => true
  | .fge _ _ => true

end Sys2Proof
end

