-- ==== Sys2Proof/Decode.lean ====
section
/-! DEFINITION. The command word, its decoding and its encoding (30_encoding R60, R62, R63, R66, R68, R71). -/

namespace Sys2Proof

/-- The 52-bit command word `cmd = {op, a, b}` (30_encoding R60). -/
def Command.toWord (c : Command) : BitVec 52 := c.op ++ c.a ++ c.b

/-- The ports' values in a command word: `op = cmd[51:48]`, `a = cmd[47:16]`, `b = cmd[15:0]` (30_encoding R60). -/
def Command.ofWord (w : BitVec 52) : Command :=
  { op := w.extractLsb' 48 4, a := w.extractLsb' 16 32, b := w.extractLsb' 0 16 }

/-- Why a command does not decode. -/
inductive DecodeReject where
  /-- op 9 to 15 (30_encoding R66) -/
  | reservedOp (op : BitVec 4)
deriving DecidableEq, Repr

/-- Decoding, in full (30_encoding R68): total, a reserved op is rejected by name. -/
def decode (c : Command) : Except DecodeReject Instr :=
  match c.op.toNat with
  | 0 => .ok (.h2s (Machine.halfInA c))
  | 1 => .ok (.s2h (Machine.singleInA c))
  | 2 => .ok (.cmp (Machine.halfInA c) (Machine.halfInB c))
  | 3 => .ok (.feq (Machine.halfInA c) (Machine.halfInB c))
  | 4 => .ok (.fne (Machine.halfInA c) (Machine.halfInB c))
  | 5 => .ok (.flt (Machine.halfInA c) (Machine.halfInB c))
  | 6 => .ok (.fgt (Machine.halfInA c) (Machine.halfInB c))
  | 7 => .ok (.fle (Machine.halfInA c) (Machine.halfInB c))
  | 8 => .ok (.fge (Machine.halfInA c) (Machine.halfInB c))
  | _ => .error (.reservedOp c.op)

/-- The decoder on a whole command word. -/
def decodeWord (w : BitVec 52) : Except DecodeReject Instr := decode (Command.ofWord w)

/-- The `op` number of an instruction (30_encoding R62). -/
def Instr.op : Instr → BitVec 4
  | .h2s _ => 0
  | .s2h _ => 1
  | .cmp _ _ => 2
  | .feq _ _ => 3
  | .fne _ _ => 4
  | .flt _ _ => 5
  | .fgt _ _ => 6
  | .fle _ _ => 7
  | .fge _ _ => 8

/-- The command of an instruction: `{op, a, b}` with every operand field the command does not read set to zero
(30_encoding R71). -/
def encode (i : Instr) : Command :=
  match i with
  | .h2s h => { op := i.op, a := h.setWidth 32, b := 0 }
  | .s2h s => { op := i.op, a := s, b := 0 }
  | .cmp ha hb => { op := i.op, a := ha.setWidth 32, b := hb }
  | .feq ha hb => { op := i.op, a := ha.setWidth 32, b := hb }
  | .fne ha hb => { op := i.op, a := ha.setWidth 32, b := hb }
  | .flt ha hb => { op := i.op, a := ha.setWidth 32, b := hb }
  | .fgt ha hb => { op := i.op, a := ha.setWidth 32, b := hb }
  | .fle ha hb => { op := i.op, a := ha.setWidth 32, b := hb }
  | .fge ha hb => { op := i.op, a := ha.setWidth 32, b := hb }

/-- The command word of an instruction. -/
def encodeWord (i : Instr) : BitVec 52 := (encode i).toWord

/-- The instruction the decoder reads from an opcode-table word `w` (bit 0 least significant, assumption 12). A command is one
52-bit word and every command has that one length (30_encoding R60), so a number with a bit above bit 51 is no command and
the row's own bit count plays no part. -/
def decodeTableWord (_nbits w : Nat) : Option Instr :=
  if w < 2 ^ 52 then
    match decodeWord (BitVec.ofNat 52 w) with
    | .ok i => some i
    | .error _ => none
  else none

end Sys2Proof
end

