-- ==== Sys2Proof/Machine/Formats.lean ====
section
/-! DEFINITION. The Half and Single formats: fields (10_state R25, R26), classes (R27, R28, R29) and values (00_scope R16, 10_state R27, R28). -/

namespace Sys2Proof.Machine

/-- `h[15]` (10_state R25). -/
def sign16 (h : Half) : BitVec 1 := h.extractLsb' 15 1
/-- `h[14:10]` (10_state R25). -/
def exp16 (h : Half) : BitVec 5 := h.extractLsb' 10 5
/-- `h[9:0]` (10_state R25). -/
def man16 (h : Half) : BitVec 10 := h.extractLsb' 0 10
/-- `h[14:0]`, the magnitude (41_comparator R121). -/
def mag16 (h : Half) : BitVec 15 := h.extractLsb' 0 15

/-- `s[31]` (10_state R26). -/
def sign32 (s : Single) : BitVec 1 := s.extractLsb' 31 1
/-- `s[30:23]` (10_state R26). -/
def exp32 (s : Single) : BitVec 8 := s.extractLsb' 23 8
/-- `s[22:0]` (10_state R26). -/
def man32 (s : Single) : BitVec 23 := s.extractLsb' 0 23

/-- `{sg, E, f}` as a Single (10_state R26). -/
def packSingle (sg : BitVec 1) (E : BitVec 8) (f : BitVec 23) : Single := sg ++ E ++ f
/-- `{sg, E, m}` as a Half (10_state R25). -/
def packHalf (sg : BitVec 1) (E : BitVec 5) (m : BitVec 10) : Half := sg ++ E ++ m
/-- `{sg, r}`, a sign above a 15-bit magnitude, as a Half (40_bit_codec R90). -/
def packMagnitude (sg : BitVec 1) (r : BitVec 15) : Half := sg ++ r

/-- The five classes of a word (10_state R27, R28). -/
inductive FloatClass where
  | zero | subnormal | normal | infinity | nan
deriving DecidableEq, Repr

/-- The class of a Half word, by the table of 10_state R27. -/
def class16 (h : Half) : FloatClass :=
  if exp16 h = 0 then (if man16 h = 0 then .zero else .subnormal)
  else if exp16 h = 31 then (if man16 h = 0 then .infinity else .nan)
  else .normal

/-- The class of a Single word, by the table of 10_state R28. -/
def class32 (s : Single) : FloatClass :=
  if exp32 s = 0 then (if man32 s = 0 then .zero else .subnormal)
  else if exp32 s = 255 then (if man32 s = 0 then .infinity else .nan)
  else .normal

/-- `isNaN16` (10_state R29). -/
def isNaN16 (h : Half) : Bool := decide (exp16 h = 31) && decide (man16 h ≠ 0)
/-- `isInf16` (10_state R29). -/
def isInf16 (h : Half) : Bool := decide (exp16 h = 31) && decide (man16 h = 0)
/-- `isZero16` (10_state R29). -/
def isZero16 (h : Half) : Bool := decide (mag16 h = 0)
/-- `isSub16` (10_state R29). -/
def isSub16 (h : Half) : Bool := decide (exp16 h = 0) && decide (man16 h ≠ 0)
/-- `isNaN32` (10_state R29). -/
def isNaN32 (s : Single) : Bool := decide (exp32 s = 255) && decide (man32 s ≠ 0)
/-- `isInf32` (10_state R29). -/
def isInf32 (s : Single) : Bool := decide (exp32 s = 255) && decide (man32 s = 0)

/-- The quiet bit of a Half is bit 9; a NaN with it set is quiet (00_scope R18). -/
def isQuietNaN16 (h : Half) : Bool := isNaN16 h && h.getLsbD 9
/-- The quiet bit of a Single is bit 22; a NaN with it set is quiet (00_scope R18). -/
def isQuietNaN32 (s : Single) : Bool := isNaN32 s && s.getLsbD 22

/-- What a word denotes (00_scope R16): a real number (here a rational, as every finite word's value is one, assumption 13),
a signed infinity, or no number. -/
inductive Value where
  | nan
  | inf (negative : Bool)
  | num (q : ℚ)
deriving DecidableEq, Repr

/-- `(-1)^s` for a sign bit (10_state R27, R28). -/
def signFactor (sg : BitVec 1) : ℚ := if sg = 1 then -1 else 1

/-- `val16` (10_state R27). -/
def val16 (h : Half) : Value :=
  let E := (exp16 h).toNat
  let m : ℚ := (man16 h).toNat
  match class16 h with
  | .zero => .num (signFactor (sign16 h) * 0)
  | .subnormal => .num (signFactor (sign16 h) * m * 2 ^ (-24 : ℤ))
  | .normal => .num (signFactor (sign16 h) * 2 ^ ((E : ℤ) - 15) * (1 + m / 1024))
  | .infinity => .inf (decide (sign16 h = 1))
  | .nan => .nan

/-- `val32` (10_state R28). -/
def val32 (s : Single) : Value :=
  let E := (exp32 s).toNat
  let f : ℚ := (man32 s).toNat
  match class32 s with
  | .zero => .num (signFactor (sign32 s) * 0)
  | .subnormal => .num (signFactor (sign32 s) * f * 2 ^ (-149 : ℤ))
  | .normal => .num (signFactor (sign32 s) * 2 ^ ((E : ℤ) - 127) * (1 + f / 2 ^ 23))
  | .infinity => .inf (decide (sign32 s = 1))
  | .nan => .nan

/-- Real order extended to the infinities; false when either value is no number. -/
def Value.lt : Value → Value → Bool
  | .num p, .num q => decide (p < q)
  | .num _, .inf n => !n
  | .inf n, .num _ => n
  | .inf m, .inf n => m && !n
  | .nan, _ => false
  | _, .nan => false

/-- Equality of two numbers or infinities (`-0 = +0`); false when either value is no number. -/
def Value.same : Value → Value → Bool
  | .num p, .num q => decide (p = q)
  | .num _, .inf _ => false
  | .inf _, .num _ => false
  | .inf m, .inf n => decide (m = n)
  | .nan, _ => false
  | _, .nan => false

/-- At most, by value. -/
def Value.le (u v : Value) : Bool := u.lt v || u.same v

end Sys2Proof.Machine
end

