-- ==== Sys2Proof/Machine/Flags.lean ====
section
/-! DEFINITION. The unit has no flags and no condition codes (10_state R23). What stands in their place is what the comparator puts on `y`: the compare code (41_comparator R122) and the predicate bit (R120). The ordering key and the four-way outcome are here, shared by CMP and the ordering predicates. -/

namespace Sys2Proof.Machine

/-- The four outcomes of a comparison (41_comparator R122). -/
inductive CmpOutcome where
  | less | equal | greater | unordered
deriving DecidableEq, Repr

/-- The 2-bit code of an outcome, `CMP_CODE`: LT 0, EQ 1, GT 2, UN 3 (41_comparator R122). -/
def CmpOutcome.code : CmpOutcome → BitVec 2
  | .less => 0b00#2
  | .equal => 0b01#2
  | .greater => 0b10#2
  | .unordered => 0b11#2

/-- The ordering key of a Half that is not a NaN: its magnitude with its sign, an integer (41_comparator R121). -/
def key (h : Half) : Int := if sign16 h = 0 then ((mag16 h).toNat : Int) else -((mag16 h).toNat : Int)

/-- The four-way outcome of comparing two Halves (41_comparator R123, `CMPcode`). -/
def compareHalf (ha hb : Half) : CmpOutcome :=
  if isNaN16 ha || isNaN16 hb then .unordered
  else if key ha < key hb then .less
  else if key ha = key hb then .equal
  else .greater

/-- Bit-pattern equality with the zeros equal and every NaN unequal (41_comparator R125, `FEQ`). -/
def equalHalf (ha hb : Half) : Bool :=
  if isNaN16 ha || isNaN16 hb then false
  else if isZero16 ha && isZero16 hb then true
  else decide (ha = hb)

/-- `{0^30, code}` (30_encoding R65). -/
def codeOnY (c : CmpOutcome) : BitVec 32 := 0#30 ++ c.code

/-- `{0^31, p}`, 1 for true and 0 for false (30_encoding R65). -/
def bitOnY (p : Bool) : BitVec 32 := 0#31 ++ BitVec.ofBool p

/-- `{0^16, r}` for a Half result (30_encoding R65). -/
def halfOnY (r : Half) : BitVec 32 := 0#16 ++ r

end Sys2Proof.Machine
end

