-- ==== Sys2Proof/Config.lean ====
section
/-! DEFINITION. What is fixed for one unit and left open by the spec. The parameters 00_scope R11 fixes are in the definitions that use them: OP_WIDTH and CMD_WIDTH in Word.lean and Decode.lean, H2S_NAN_MODE and S2H_NAN_MODE in Machine/BitCodec.lean, CMP_CODE in Machine/Flags.lean. -/

namespace Sys2Proof

/-- `P_LATENCY`, the number of clock cycles between a command's acceptance and its result (00_scope R12), the same for
every command. The spec leaves it open, so nothing here says what it is. -/
opaque Config.pLatency : Nat

/-- FREE VALUE (assumption 5): the `n`-th value sampled from `y` while the inputs of a command change
(70_reset_and_hazards R177: "any value"). -/
opaque Config.freeSample : Nat → BitVec 32

end Sys2Proof
end

