-- ==== Sys2Proof/Machine/State.lean ====
section
/-! DEFINITION. The state of the unit (10_state R32), the requesters' actions that drive it (70_reset_and_hazards R178), and why a step can stop. -/

namespace Sys2Proof.Machine

/-- One thing that happens at the unit: what a requester does (70_reset_and_hazards R178, R177, 60_exceptions R164), or the
passing of a command's latency (R175). -/
inductive Event where
  /-- a requester presents a command, inputs stable, and it is accepted (R178, R177) -/
  | issue (c : Command)
  /-- the latency of the oldest command in flight has passed: its result is due (R175) -/
  | deliver
  /-- a requester waits for the next result (R178, U9) -/
  | await
  /-- a requester reads `y` (R178) -/
  | readY
  /-- a requester samples `y` while it changes the inputs of a command (R177, U8) -/
  | sampleChanging
  /-- reset (R171) -/
  | reset
  /-- power is removed and returns (60_exceptions R164) -/
  | powerCycle
deriving DecidableEq, Repr

/-- The whole state: the unit's own two pieces, `y` and the commands in flight (10_state R32), and three fields of the
model's own that hold the outside world as plain data. -/
structure State where
  /-- the output holding value; `none` is the spec's own "no defined value" (10_state R31, assumption 1) -/
  y : Option (BitVec 32)
  /-- the commands accepted whose result is not yet on `y`, oldest first (10_state R32, 70 R175) -/
  inFlight : List Command
  /-- MODEL's own: what happens next, oldest first (assumption 2) -/
  agenda : List Event
  /-- MODEL's own: the values requesters have read from `y`, oldest first (assumption 7) -/
  reads : List (BitVec 32)
  /-- MODEL's own: how many free values have been used (assumption 5) -/
  freeCount : Nat
deriving DecidableEq, Repr

/-- Why the model stops with a fault. The hardware has no exception or trap (60_exceptions R150, R155). -/
inductive Fault where
  /-- raised by a read or a sample of `y` before any command has completed since power-up or reset: "a model must treat a
  read of `y` before any command has completed as a fault" (10_state R31). Safe: the hardware gives some value. -/
  | readOfUndefinedY
  /-- raised by `await` with no command in flight: "a model whose requester waits for it is `stuck`" (U9). Safe: nothing
  happens on the hardware. -/
  | awaitedResultNeverComes
deriving DecidableEq, Repr

/-- Why the model refuses a step. -/
inductive Refusal where
  /-- raised by an arm of `exec` whose instruction has no meaning yet; none is left. Safe. -/
  | notModelled (mnemonic : String)
  /-- raised when a command with op 9 to 15 comes to its result (30_encoding R66: "a model must REFUSE the command"). Safe:
  nothing is said of what follows. -/
  | reservedOp (op : BitVec 4)
deriving DecidableEq, Repr

/-- The machine right after reset: `y` has no defined value and nothing is in flight (70_reset_and_hazards R171). The model's
own fields start empty (assumptions 2, 5, 7). -/
def State.reset : State := { y := none, inFlight := [], agenda := [], reads := [], freeCount := 0 }

end Sys2Proof.Machine
end

