-- ==== Sys2Proof/Machine/Ops.lean ====
section
/-! DEFINITION. The named operations on the unit's state: writing and reading `y`, accepting a command, reset. The unit has no memory and no registers (20_memory R40, 10_state R21), and no exception to take or return from (60_exceptions R150, R155, R156), so no operation for those exists. -/

namespace Sys2Proof.Machine

/-- The one write of a result on `y`, whole (20_memory R45, 10_state R31). -/
def State.writeY (s : State) (v : BitVec 32) : State := { s with y := some v }

/-- A command is accepted: it joins the commands in flight behind the older ones (70_reset_and_hazards R175). -/
def State.accept (s : State) (c : Command) : State := { s with inFlight := s.inFlight ++ [c] }

/-- Reset: `y` has no defined value and every command in flight is discarded (70_reset_and_hazards R171). -/
def State.clear (s : State) : State := { s with y := none, inFlight := [] }

/-- Loss and return of power: "the value held on `y` is lost" (60_exceptions R164). The commands in flight are lost with it
(assumption 10). -/
def State.powerLoss (s : State) : State := { s with y := none, inFlight := [] }

/-- A requester reads `y`: the held value, which stays; a fault before the first result (10_state R31, 70 R178). -/
def readOutput (s : State) : Host.Outcome State Fault Refusal :=
  match s.y with
  | some v => .next { s with reads := s.reads ++ [v] }
  | none => .fault .readOfUndefinedY

/-- A requester samples `y` while it changes the inputs: any value (70_reset_and_hazards R177), a fresh free value each time;
`y` itself keeps its value (10_state R31). Before the first result it is a read of an unwritten value (assumption 6). -/
def sampleOutput (s : State) : Host.Outcome State Fault Refusal :=
  match s.y with
  | some _ => .next { s with reads := s.reads ++ [Config.freeSample s.freeCount], freeCount := s.freeCount + 1 }
  | none => .fault .readOfUndefinedY

end Sys2Proof.Machine
end

