-- ==== Sys2Proof/Machine/BitCodec.lean ====
section
/-! DEFINITION. The Bit Codec: H2S (40_bit_codec R80 to R84) and S2H (R85 to R95). Arithmetic is on unbounded integers, cut where a rule writes a slice (00_scope R14). -/

namespace Sys2Proof.Machine

/-- `msb(m)`, the index of the highest set bit of a positive integer (00_scope R14). -/
def msb (m : Nat) : Nat := Nat.log2 m

/-- The shift count that normalises a subnormal mantissa, `k = 10 - msb(m)` (40_bit_codec R80). -/
def normShift (m : Nat) : Nat := 10 - msb m

/-- A Half mantissa in the high bits of a Single mantissa, `{m, 0^13}` (40_bit_codec R81). -/
def widenMantissa (m : BitVec 10) : BitVec 23 := m ++ 0#13

/-- H2S of a NaN: sign and payload kept, the quiet bit not forced; `H2S_NAN_MODE = PRESERVE` (40_bit_codec R84, D14). -/
def widenNaN (h : Half) : Single := packSingle (sign16 h) 0xFF#8 (widenMantissa (man16 h))

/-- H2S of a subnormal: the normal Single with the same value (40_bit_codec R80). -/
def widenSubnormal (h : Half) : Single :=
  let m := (man16 h).toNat
  let k := normShift m
  packSingle (sign16 h) (BitVec.ofNat 8 (113 - k)) (BitVec.ofNat 23 (((m <<< k) % 2 ^ 10) <<< 13))

/-- H2S of a normal: rebias the exponent, shift the mantissa left by 13 (40_bit_codec R81). -/
def widenNormal (h : Half) : Single :=
  packSingle (sign16 h) (BitVec.ofNat 8 ((exp16 h).toNat + 112)) (widenMantissa (man16 h))

/-- `H2S` (40_bit_codec R82). -/
def widen (h : Half) : Single :=
  let E := (exp16 h).toNat
  let m := (man16 h).toNat
  if E = 0 ∧ m = 0 then packSingle (sign16 h) 0#8 0#23
  else if E = 0 then widenSubnormal h
  else if E = 31 ∧ m = 0 then packSingle (sign16 h) 0xFF#8 0#23
  else if E = 31 then widenNaN h
  else widenNormal h

/-- `rne_inc` (40_bit_codec R85): the rounding increment from the WHOLE remainder `M mod 2^sh`. -/
def rneInc (M sh lsb : Nat) : Nat :=
  let rem := M % 2 ^ sh
  let half := 2 ^ (sh - 1)
  if rem > half then 1
  else if rem = half ∧ lsb = 1 then 1
  else 0

/-- S2H of a NaN: sign kept, quiet bit forced, the next nine payload bits kept; `S2H_NAN_MODE = QUIET_TRUNCATE`
(40_bit_codec R88, D15). -/
def narrowNaN (s : Single) : Half := packHalf (sign32 s) 0b11111#5 (1#1 ++ (man32 s).extractLsb' 13 9)

/-- The signed infinity (40_bit_codec R87, R89). -/
def infinity16 (sg : BitVec 1) : Half := packHalf sg 0b11111#5 0#10

/-- The signed zero (40_bit_codec R93). -/
def zero16 (sg : BitVec 1) : Half := packMagnitude sg 0#15

/-- The 24-bit significand `M = 2^23 + f` (40_bit_codec R86). -/
def significand (s : Single) : Nat := 2 ^ 23 + (man32 s).toNat

/-- The right shift of the significand for unbiased exponent `e`: 13 in the Half normal range, `-1 - e` below it
(40_bit_codec R94, R95, C2). -/
def narrowShift (e : Int) : Nat := if e ≥ -14 then 13 else (-1 - e).toNat

/-- The truncated result: exponent field and kept mantissa bits (40_bit_codec R94, R95). -/
def narrowBase (s : Single) (e : Int) : Nat :=
  if e ≥ -14 then (e + 15).toNat * 2 ^ 10 + ((man32 s).toNat >>> 13)
  else significand s >>> narrowShift e

/-- The magnitude of a rounded result, `r = base + rne_inc(M, sh, base mod 2)`; a carry runs from the mantissa into the exponent
(40_bit_codec R90, R95). -/
def narrowRounded (s : Single) (e : Int) : Nat :=
  narrowBase s e + rneInc (significand s) (narrowShift e) (narrowBase s e % 2)

/-- `S2H` (40_bit_codec R90). -/
def narrow (s : Single) : Half :=
  let E := (exp32 s).toNat
  let e : Int := (E : Int) - 127
  if E = 255 ∧ (man32 s).toNat ≠ 0 then narrowNaN s
  else if E = 255 then infinity16 (sign32 s)
  else if E = 0 then zero16 (sign32 s)
  else if e > 15 then infinity16 (sign32 s)
  else if e < -25 then zero16 (sign32 s)
  else packMagnitude (sign32 s) (BitVec.ofNat 15 (narrowRounded s e))

/-- H2S, op 0 (40_bit_codec R82): `y` gets all 32 bits of the Single. -/
def execH2s (h : Half) (s : State) : Host.Outcome State Fault Refusal := .next (s.writeY (widen h))

/-- S2H, op 1 (40_bit_codec R90): `y` gets `{0^16, r}`. -/
def execS2h (x : Single) (s : State) : Host.Outcome State Fault Refusal := .next (s.writeY (halfOnY (narrow x)))

end Sys2Proof.Machine
end

