-- ==== Sys2Proof/Machine/Comparator.lean ====
section
/-! DEFINITION. The comparator: CMP, FEQ, FNE, FLT, FGT, FLE, FGE (41_comparator R120 to R131). -/

namespace Sys2Proof.Machine

/-- `FNE`, true when unordered (41_comparator R127). -/
def notEqualHalf (ha hb : Half) : Bool := !equalHalf ha hb

/-- `FLT` (41_comparator R128). -/
def lessHalf (ha hb : Half) : Bool := decide (compareHalf ha hb = .less)

/-- `FGT` (41_comparator R129). -/
def greaterHalf (ha hb : Half) : Bool := decide (compareHalf ha hb = .greater)

/-- `FLE` (41_comparator R130). -/
def lessEqualHalf (ha hb : Half) : Bool := decide (compareHalf ha hb = .less ∨ compareHalf ha hb = .equal)

/-- `FGE` (41_comparator R131). -/
def greaterEqualHalf (ha hb : Half) : Bool := decide (compareHalf ha hb = .greater ∨ compareHalf ha hb = .equal)

/-- CMP, op 2 (41_comparator R123): `y` gets `{0^30, code}`. -/
def execCmp (ha hb : Half) (s : State) : Host.Outcome State Fault Refusal :=
  .next (s.writeY (codeOnY (compareHalf ha hb)))

/-- FEQ, op 3 (41_comparator R125). -/
def execFeq (ha hb : Half) (s : State) : Host.Outcome State Fault Refusal := .next (s.writeY (bitOnY (equalHalf ha hb)))

/-- FNE, op 4 (41_comparator R127). -/
def execFne (ha hb : Half) (s : State) : Host.Outcome State Fault Refusal := .next (s.writeY (bitOnY (notEqualHalf ha hb)))

/-- FLT, op 5 (41_comparator R128). -/
def execFlt (ha hb : Half) (s : State) : Host.Outcome State Fault Refusal := .next (s.writeY (bitOnY (lessHalf ha hb)))

/-- FGT, op 6 (41_comparator R129). -/
def execFgt (ha hb : Half) (s : State) : Host.Outcome State Fault Refusal := .next (s.writeY (bitOnY (greaterHalf ha hb)))

/-- FLE, op 7 (41_comparator R130). -/
def execFle (ha hb : Half) (s : State) : Host.Outcome State Fault Refusal := .next (s.writeY (bitOnY (lessEqualHalf ha hb)))

/-- FGE, op 8 (41_comparator R131). -/
def execFge (ha hb : Half) (s : State) : Host.Outcome State Fault Refusal :=
  .next (s.writeY (bitOnY (greaterEqualHalf ha hb)))

end Sys2Proof.Machine
end

