-- ==== Sys2Proof/Machine/Dispatch.lean ====
section
/-! DEFINITION. One arm per instruction (30_encoding R62). -/

namespace Sys2Proof.Machine

def exec (i : Instr) (s : State) : Host.Outcome State Fault Refusal :=
  match i with
  | .h2s h => Sys2Proof.Machine.execH2s h s
  | .s2h x => Sys2Proof.Machine.execS2h x s
  | .cmp ha hb => Sys2Proof.Machine.execCmp ha hb s
  | .feq ha hb => Sys2Proof.Machine.execFeq ha hb s
  | .fne ha hb => Sys2Proof.Machine.execFne ha hb s
  | .flt ha hb => Sys2Proof.Machine.execFlt ha hb s
  | .fgt ha hb => Sys2Proof.Machine.execFgt ha hb s
  | .fle ha hb => Sys2Proof.Machine.execFle ha hb s
  | .fge ha hb => Sys2Proof.Machine.execFge ha hb s

end Sys2Proof.Machine
end

