-- ==== Sys2Proof/Machine/Events.lean ====
section
/-! DEFINITION. What each event does (70_reset_and_hazards R171, R175, R177, R178; 10_state R31; 60_exceptions R164). -/

namespace Sys2Proof.Machine

/-- One command, from its command word to its result, as one atomic step (70_reset_and_hazards R176): decoded and run; a
reserved op is refused (30_encoding R66). -/
def runCommand (c : Command) (s : State) : Host.Outcome State Fault Refusal :=
  match decode c with
  | .ok i => exec i s
  | .error (.reservedOp op) => .refused (.reservedOp op)

/-- The result of the oldest command in flight is due: the command leaves the list and runs (70_reset_and_hazards R175). With
nothing in flight no result is due, and nothing happens (assumption 19). -/
def deliverOldest (s : State) : Host.Outcome State Fault Refusal :=
  match s.inFlight with
  | [] => .next s
  | c :: rest => runCommand c { s with inFlight := rest }

/-- A requester waits for the next result. With nothing in flight it waits for ever (U9). -/
def awaitResult (s : State) : Host.Outcome State Fault Refusal :=
  match s.inFlight with
  | [] => .fault .awaitedResultNeverComes
  | c :: rest => runCommand c { s with inFlight := rest }

/-- What one event does to the state it finds. -/
def handle (e : Event) (s : State) : Host.Outcome State Fault Refusal :=
  match e with
  | .issue c => .next (s.accept c)
  | .deliver => deliverOldest s
  | .await => awaitResult s
  | .readY => readOutput s
  | .sampleChanging => sampleOutput s
  | .reset => .next s.clear
  | .powerCycle => .next s.powerLoss

/-- Take the next event off the agenda and do it. With no event due the unit keeps what it holds (10_state R31). -/
def nextEvent (s : State) : Host.Outcome State Fault Refusal :=
  match s.agenda with
  | [] => .next s
  | e :: rest => handle e { s with agenda := rest }

/-- `s` with the command `c` accepted before every other command in flight, and its result due at once. -/
def State.presentNow (s : State) (c : Command) : State :=
  { s with inFlight := c :: s.inFlight, agenda := .deliver :: s.agenda }

end Sys2Proof.Machine
end

