-- ==== Sys2Proof/Machine/Step.lean ====
section
/-! DEFINITION. One step of the machine: the next event (Machine/Events.lean). -/

namespace Sys2Proof.Machine

/-- One step: the next event happens. A command runs in one step, from its command word to its result (70 R176). -/
def step (s : State) : Host.Outcome State Fault Refusal := nextEvent s

/-- `s` with the opcode-table word `w` as the command whose result the next step delivers (assumptions 9, 12). The unit fetches
nothing (10_state R22): this stands for a requester that presents the command. -/
def State.withFetchWord (s : State) (_nbits w : Nat) : State := s.presentNow (Command.ofWord (BitVec.ofNat 52 w))

end Sys2Proof.Machine
end

