-- ==== Sys2Proof/Machine/Assembler.lean ====
section
/-! DEFINITION. The text of a command (30_encoding R69), the source's alias spellings (R70) and the command a line stands for (R71). It acts on no state of the unit: it is the requester's side. What R69 does not settle is assumption 16. -/

namespace Sys2Proof.Machine

/-- The pieces of a line's text. -/
inductive AsmToken where
  | word (cs : List Char)
  | comma
  | assign
  | lparen
  | rparen
  /-- a relational operator of the source (30_encoding R70), by its op number -/
  | rel (op : BitVec 4)
deriving DecidableEq, Repr

/-- Why a line is no command. -/
inductive AsmError where
  | badCharacter
  | badForm
  | unknownMnemonic
  | badOperand
  | unboundName
  | tooWide
  | wrongFormat
deriving DecidableEq, Repr

/-- The characters of mnemonics, names and literals. -/
def isWordChar (c : Char) : Bool := c.isAlphanum || c == '_'

/-- The word collected so far, if there is one, before the tokens that follow it. -/
def flushWord (acc : List Char) (ts : List AsmToken) : List AsmToken :=
  if acc.isEmpty then ts else .word acc :: ts

/-- The tokens of a line; `; text` is a comment (30_encoding R69). `acc` is the word being read. -/
def lexLine : List Char → List Char → Except AsmError (List AsmToken)
  | acc, [] => .ok (flushWord acc [])
  | acc, '=' :: '=' :: cs => do return flushWord acc (.rel 3 :: (← lexLine [] cs))
  | acc, '!' :: '=' :: cs => do return flushWord acc (.rel 4 :: (← lexLine [] cs))
  | acc, '<' :: '=' :: cs => do return flushWord acc (.rel 7 :: (← lexLine [] cs))
  | acc, '>' :: '=' :: cs => do return flushWord acc (.rel 8 :: (← lexLine [] cs))
  | acc, '<' :: cs => do return flushWord acc (.rel 5 :: (← lexLine [] cs))
  | acc, '>' :: cs => do return flushWord acc (.rel 6 :: (← lexLine [] cs))
  | acc, '=' :: cs => do return flushWord acc (.assign :: (← lexLine [] cs))
  | acc, '(' :: cs => do return flushWord acc (.lparen :: (← lexLine [] cs))
  | acc, ')' :: cs => do return flushWord acc (.rparen :: (← lexLine [] cs))
  | acc, ',' :: cs => do return flushWord acc (.comma :: (← lexLine [] cs))
  | acc, ';' :: _ => .ok (flushWord acc [])
  | acc, c :: cs =>
    if isWordChar c then lexLine (acc ++ [c]) cs
    else if c == ' ' || c == '\t' then do return flushWord acc (← lexLine [] cs)
    else .error .badCharacter

/-- A mnemonic's op, in any case (30_encoding R62, R69). -/
def mnemonicOp (w : List Char) : Option (BitVec 4) :=
  match w.map Char.toUpper with
  | ['H', '2', 'S'] => some 0
  | ['S', '2', 'H'] => some 1
  | ['C', 'M', 'P'] => some 2
  | ['F', 'E', 'Q'] => some 3
  | ['F', 'N', 'E'] => some 4
  | ['F', 'L', 'T'] => some 5
  | ['F', 'G', 'T'] => some 6
  | ['F', 'L', 'E'] => some 7
  | ['F', 'G', 'E'] => some 8
  | _ => none

/-- The op of a source function's name (30_encoding R70). -/
def functionOp (w : List Char) : Option (BitVec 4) :=
  if w = ['h', 'a', 'l', 'f', 'T', 'o', 'S', 'i', 'n', 'g', 'l', 'e'] then some 0
  else if w = ['s', 'i', 'n', 'g', 'l', 'e', 'T', 'o', 'H', 'a', 'l', 'f'] then some 1
  else if w = ['c', 'o', 'm', 'p', 'a', 'r', 'e'] then some 2
  else if w = ['e', 'q', 'u', 'a', 'l', 's'] then some 3
  else none

/-- An operand: a hexadecimal literal or a bound name (30_encoding R69). -/
inductive AsmOperand where
  | lit (v : Nat)
  | name (n : List Char)
deriving DecidableEq, Repr

/-- The value of a hexadecimal digit. -/
def hexDigit (c : Char) : Option Nat :=
  if '0' ≤ c ∧ c ≤ '9' then some (c.toNat - '0'.toNat)
  else if 'a' ≤ c ∧ c ≤ 'f' then some (c.toNat - 'a'.toNat + 10)
  else if 'A' ≤ c ∧ c ≤ 'F' then some (c.toNat - 'A'.toNat + 10)
  else none

/-- The value of hexadecimal digits, most significant first, after those of value `v`. -/
def hexValue : Nat → List Char → Option Nat
  | v, [] => some v
  | v, c :: cs => (hexDigit c).bind fun d => hexValue (16 * v + d) cs

/-- A word as an operand: `0x` and at least one digit is a literal, a word that starts with no digit is a name. -/
def parseOperand (w : List Char) : Except AsmError AsmOperand :=
  match w with
  | '0' :: 'x' :: d :: ds =>
    match hexValue 0 (d :: ds) with
    | some v => .ok (.lit v)
    | none => .error .badOperand
  | c :: cs => if c.isDigit then .error .badOperand else .ok (.name (c :: cs))
  | [] => .error .badOperand

/-- A line's command, its operands not yet looked up: `bind` is the name of `name = MNEMONIC ...` (30_encoding R69). -/
structure AsmLine where
  bind : Option (List Char)
  op : BitVec 4
  args : List AsmOperand
deriving DecidableEq, Repr

/-- An op found by name, or the error that it is none. -/
def knownOp (o : Option (BitVec 4)) : Except AsmError (BitVec 4) :=
  match o with
  | some op => .ok op
  | none => .error .unknownMnemonic

/-- The op and the operands of a line, in the mnemonic form (30_encoding R69) or in a source spelling (R70). -/
def parseBody (ts : List AsmToken) : Except AsmError (BitVec 4 × List AsmOperand) :=
  match ts with
  | [.word m, .word x] => do return (← knownOp (mnemonicOp m), [← parseOperand x])
  | [.word m, .word x, .comma, .word y] => do return (← knownOp (mnemonicOp m), [← parseOperand x, ← parseOperand y])
  | [.word f, .lparen, .word x, .rparen] => do return (← knownOp (functionOp f), [← parseOperand x])
  | [.word f, .lparen, .word x, .comma, .word y, .rparen] => do
    return (← knownOp (functionOp f), [← parseOperand x, ← parseOperand y])
  | [.word x, .rel op, .word y] => do return (op, [← parseOperand x, ← parseOperand y])
  | _ => .error .badForm

/-- A line's tokens as a command; no token at all is a line without one. -/
def parseTokens (ts : List AsmToken) : Except AsmError (Option AsmLine) :=
  match ts with
  | [] => .ok none
  | .word n :: .assign :: body =>
    match parseOperand n with
    | .ok (.name n) => do
      let (op, args) ← parseBody body
      return some { bind := some n, op := op, args := args }
    | .ok (.lit _) => .error .badForm
    | .error e => .error e
  | body => do
    let (op, args) ← parseBody body
    return some { bind := none, op := op, args := args }

/-- The line of a text. -/
def parseLine (text : List Char) : Except AsmError (Option AsmLine) := do parseTokens (← lexLine [] text)

/-- What a name is bound to: a Half result is `y[15:0]` (30_encoding R69), a Single result is `y`, a compare code or a predicate
bit is `y`, whose value is below 4. -/
inductive AsmValue where
  | half (v : BitVec 16)
  | single (v : BitVec 32)
  | code (v : BitVec 32)
deriving DecidableEq, Repr

/-- The value a line binds its name to, from its op and the `y` after its command (30_encoding R69). -/
def boundValue (op : BitVec 4) (y : BitVec 32) : AsmValue :=
  if op = 0 then .single y
  else if op = 1 then .half (y.extractLsb' 0 16)
  else .code y

/-- The names bound so far, the latest first. -/
abbrev AsmNames := List (List Char × AsmValue)

/-- An operand where a Half is read. A Single result is none (20_memory R43). -/
def halfOperand (names : AsmNames) (x : AsmOperand) : Except AsmError (BitVec 16) :=
  match x with
  | .lit v => if v < 2 ^ 16 then .ok (BitVec.ofNat 16 v) else .error .tooWide
  | .name n =>
    match names.lookup n with
    | some (.half v) => .ok v
    | some (.code v) => .ok (v.extractLsb' 0 16)
    | some (.single _) => .error .wrongFormat
    | none => .error .unboundName

/-- An operand where a Single is read. A Half result is none (20_memory R43). -/
def singleOperand (names : AsmNames) (x : AsmOperand) : Except AsmError (BitVec 32) :=
  match x with
  | .lit v => if v < 2 ^ 32 then .ok (BitVec.ofNat 32 v) else .error .tooWide
  | .name n =>
    match names.lookup n with
    | some (.single v) => .ok v
    | some (.code v) => .ok v
    | some (.half _) => .error .wrongFormat
    | none => .error .unboundName

/-- The instruction of an op and its operands, as many as the operation reads (30_encoding R63). -/
def instrOf (names : AsmNames) (op : BitVec 4) (args : List AsmOperand) : Except AsmError Instr :=
  match op.toNat, args with
  | 0, [x] => do return .h2s (← halfOperand names x)
  | 1, [x] => do return .s2h (← singleOperand names x)
  | 2, [x, y] => do return .cmp (← halfOperand names x) (← halfOperand names y)
  | 3, [x, y] => do return .feq (← halfOperand names x) (← halfOperand names y)
  | 4, [x, y] => do return .fne (← halfOperand names x) (← halfOperand names y)
  | 5, [x, y] => do return .flt (← halfOperand names x) (← halfOperand names y)
  | 6, [x, y] => do return .fgt (← halfOperand names x) (← halfOperand names y)
  | 7, [x, y] => do return .fle (← halfOperand names x) (← halfOperand names y)
  | 8, [x, y] => do return .fge (← halfOperand names x) (← halfOperand names y)
  | _, _ => .error .badForm

/-- The command of a line: `{op, a, b}` with the fields it does not read at zero (30_encoding R71). -/
def assembleLine (names : AsmNames) (l : AsmLine) : Except AsmError Command := do
  return encode (← instrOf names l.op l.args)

/-- The names after a line whose command left `y` (30_encoding R69). -/
def bindResult (names : AsmNames) (l : AsmLine) (y : BitVec 32) : AsmNames :=
  match l.bind with
  | some n => (n, boundValue l.op y) :: names
  | none => names

end Sys2Proof.Machine
end

