-- ==== Sys2Proof/Machine/Timing.lean ====
section
/-! DEFINITION. When results appear (70_reset_and_hazards R175, 00_scope R12). The step models no time (R176); this file lays out, clock cycle by clock cycle, the agenda of a unit with a given latency, for the step to run. -/

namespace Sys2Proof.Machine

/-- The command accepted at cycle `t`, if one is: at most one a cycle, as there is one set of input ports (assumption 18). -/
def offeredAt (offers : List (Option Command)) (t : Nat) : Option Command := (offers[t]?).join

/-- What happens at cycle `t` of a unit with latency `p`: the command offered at `t` is accepted, and the result of the command
accepted at `t - p` appears (70_reset_and_hazards R175). -/
def cycleEvents (p : Nat) (offers : List (Option Command)) (t : Nat) : List Event :=
  (match offeredAt offers t with
    | some c => [.issue c]
    | none => []) ++
  (if p ≤ t ∧ (offeredAt offers (t - p)).isSome then [.deliver] else [])

/-- The agenda of the cycles 0 to `n - 1`. -/
def timedAgenda (p : Nat) (offers : List (Option Command)) : Nat → List Event
  | 0 => []
  | n + 1 => timedAgenda p offers n ++ cycleEvents p offers n

/-- The agenda of THIS unit, with its own open latency (00_scope R12). -/
def unitAgenda (offers : List (Option Command)) (n : Nat) : List Event := timedAgenda Config.pLatency offers n

/-- The latest command accepted at a cycle before `n`. -/
def lastOffered (offers : List (Option Command)) : Nat → Option Command
  | 0 => none
  | n + 1 => (offeredAt offers n).or (lastOffered offers n)

/-- Run exactly these events, one step for each, in the place of the agenda of `s`; nothing is left on the agenda at the end. -/
def runAgenda (s : State) : List Event → Host.Outcome State Fault Refusal
  | [] => .next { s with agenda := [] }
  | e :: rest =>
    match step { s with agenda := e :: rest } with
    | .next t => runAgenda t rest
    | .fault f => .fault f
    | .refused r => .refused r

end Sys2Proof.Machine
end

