-- ==== Sys2Proof/Machine/UnitFunction.lean ====
section
/-! DEFINITION. The unit as the one function of a command word that 30_encoding R61 says it is, written from the decoding pseudocode of R68 on the bare 52 bits, apart from the decoder and the state machine. -/

namespace Sys2Proof.Machine

/-- `y = F(cmd)` (30_encoding R61, R68); no value for a reserved op (R66). -/
def unitFunction (cmd : BitVec 52) : Option (BitVec 32) :=
  let op := cmd.extractLsb' 48 4
  let a := cmd.extractLsb' 16 32
  let b := cmd.extractLsb' 0 16
  let ha := a.extractLsb' 0 16
  if op = 0 then some (widen ha)
  else if op = 1 then some (0#16 ++ narrow a)
  else if op = 2 then some (0#30 ++ (compareHalf ha b).code)
  else if op = 3 then some (0#31 ++ BitVec.ofBool (equalHalf ha b))
  else if op = 4 then some (0#31 ++ BitVec.ofBool (notEqualHalf ha b))
  else if op = 5 then some (0#31 ++ BitVec.ofBool (lessHalf ha b))
  else if op = 6 then some (0#31 ++ BitVec.ofBool (greaterHalf ha b))
  else if op = 7 then some (0#31 ++ BitVec.ofBool (lessEqualHalf ha b))
  else if op = 8 then some (0#31 ++ BitVec.ofBool (greaterEqualHalf ha b))
  else none

end Sys2Proof.Machine
end

