-- ==== Sys2Proof/Safety.lean ====
section
/-! DEFINITION. What counts as a safe run: the requesters keep their duty to use op 0 to 8 only (70_reset_and_hazards R178, 30_encoding R66). -/

namespace Sys2Proof.Machine

/-- An event that keeps the requester's duty: a command it issues has op 0 to 8 (70_reset_and_hazards R178). -/
def Event.wf : Event → Bool
  | .issue c => c.wf
  | .deliver => true
  | .await => true
  | .readY => true
  | .sampleChanging => true
  | .reset => true
  | .powerCycle => true

/-- Every command in flight and every command still to be issued is legal. -/
def State.legal (s : State) : Bool := s.inFlight.all Command.wf && s.agenda.all Event.wf

/-- The value on `y`, if there is one, is the result of some command (10_state R31: "`y` holds the result of the most recent
completed command"). -/
def State.yIsAResult (s : State) : Prop := ∀ v, s.y = some v → ∃ c : Command, unitFunction c.toWord = some v

/-- The requester reads or waits only when something is there: `y` has a value for a read, a command is in flight for a wait
(70_reset_and_hazards R178: "read only after a result is due"). -/
def State.nextIsDue (s : State) : Bool :=
  match s.agenda with
  | .readY :: _ => s.y.isSome
  | .sampleChanging :: _ => s.y.isSome
  | .await :: _ => !s.inFlight.isEmpty
  | .issue _ :: _ => true
  | .deliver :: _ => true
  | .reset :: _ => true
  | .powerCycle :: _ => true
  | [] => true

end Sys2Proof.Machine
end

