-- ==== Sys2Proof/Certificates/Slice0/Obligations.lean ====
section
/-! DEFINITION. The statements about the unit, one Prop each, from the spec's numbered rules. -/

open Sys2Proof Sys2Proof.Machine

/-! ### The formats -/

/-- 10_state R27, R29: each Half pattern falls in one of five cases, with its value and class predicates. -/
def Obligations.EveryHalfIsOneOfFiveClassesWithItsValue : Prop :=
  ∀ h : Half,
    let E := (exp16 h).toNat
    let m := (man16 h).toNat
    let sg : ℚ := if sign16 h = 1 then -1 else 1
    (E = 0 ∧ m = 0 → val16 h = .num 0 ∧ isZero16 h ∧ !isSub16 h ∧ !isInf16 h ∧ !isNaN16 h) ∧
    (E = 0 ∧ m ≠ 0 → val16 h = .num (sg * m * 2 ^ (-24 : ℤ)) ∧ isSub16 h ∧ !isZero16 h ∧ !isInf16 h ∧ !isNaN16 h) ∧
    (1 ≤ E ∧ E ≤ 30 → val16 h = .num (sg * 2 ^ ((E : ℤ) - 15) * (1 + m / 1024)) ∧
      !isZero16 h ∧ !isSub16 h ∧ !isInf16 h ∧ !isNaN16 h) ∧
    (E = 31 ∧ m = 0 → val16 h = .inf (decide (sign16 h = 1)) ∧ isInf16 h ∧ !isZero16 h ∧ !isSub16 h ∧ !isNaN16 h) ∧
    (E = 31 ∧ m ≠ 0 → val16 h = .nan ∧ isNaN16 h ∧ !isZero16 h ∧ !isSub16 h ∧ !isInf16 h)

/-- 10_state R28: each Single pattern falls in one of five cases, with its value. -/
def Obligations.EverySingleIsOneOfFiveClassesWithItsValue : Prop :=
  ∀ s : Single,
    let E := (exp32 s).toNat
    let f := (man32 s).toNat
    let sg : ℚ := if sign32 s = 1 then -1 else 1
    (E = 0 ∧ f = 0 → val32 s = .num 0 ∧ class32 s = .zero) ∧
    (E = 0 ∧ f ≠ 0 → val32 s = .num (sg * f * 2 ^ (-149 : ℤ)) ∧ class32 s = .subnormal) ∧
    (1 ≤ E ∧ E ≤ 254 → val32 s = .num (sg * 2 ^ ((E : ℤ) - 127) * (1 + f / 2 ^ 23)) ∧ class32 s = .normal) ∧
    (E = 255 ∧ f = 0 → val32 s = .inf (decide (sign32 s = 1)) ∧ class32 s = .infinity ∧ isInf32 s) ∧
    (E = 255 ∧ f ≠ 0 → val32 s = .nan ∧ class32 s = .nan ∧ isNaN32 s)

/-- 10_state R30: the landmark encodings, and which words are signalling and which quiet NaNs. -/
def Obligations.LandmarkHalfEncodings : Prop :=
  val16 0x0001#16 = .num (2 ^ (-24 : ℤ)) ∧ isSub16 0x0001#16 ∧
  val16 0x03FF#16 = .num (1023 * 2 ^ (-24 : ℤ)) ∧ isSub16 0x03FF#16 ∧
  val16 0x0400#16 = .num (2 ^ (-14 : ℤ)) ∧ class16 0x0400#16 = .normal ∧
  val16 0x3C00#16 = .num 1 ∧
  val16 0x7BFF#16 = .num 65504 ∧
  val16 0x7C00#16 = .inf false ∧ val16 0xFC00#16 = .inf true ∧
  (∀ h : Half, 0x7C01 ≤ (mag16 h).toNat → (mag16 h).toNat ≤ 0x7DFF → isNaN16 h ∧ !isQuietNaN16 h) ∧
  (∀ h : Half, 0x7E00 ≤ (mag16 h).toNat → isNaN16 h ∧ isQuietNaN16 h)

/-! ### Commands and their encoding -/

/-- 30_encoding R60: a command is the 52-bit concatenation of the three ports, and the ports come back out of it. -/
def Obligations.CommandWordIsThePortsSideBySide : Prop :=
  (∀ c : Command, c.toWord.extractLsb' 48 4 = c.op ∧ c.toWord.extractLsb' 16 32 = c.a ∧ c.toWord.extractLsb' 0 16 = c.b) ∧
  (∀ c : Command, Command.ofWord c.toWord = c) ∧
  (∀ w : BitVec 52, (Command.ofWord w).toWord = w)

/-- 30_encoding R62, R63: the op field selects the operation, and the operands are the slices of the command that the
operation reads. -/
def Obligations.OpFieldSelectsTheOperationAndItsOperands : Prop :=
  ∀ w : BitVec 52,
    let op := (w.extractLsb' 48 4).toNat
    let ha := w.extractLsb' 16 16
    let hb := w.extractLsb' 0 16
    (op = 0 → decodeWord w = .ok (.h2s ha)) ∧
    (op = 1 → decodeWord w = .ok (.s2h (w.extractLsb' 16 32))) ∧
    (op = 2 → decodeWord w = .ok (.cmp ha hb)) ∧
    (op = 3 → decodeWord w = .ok (.feq ha hb)) ∧
    (op = 4 → decodeWord w = .ok (.fne ha hb)) ∧
    (op = 5 → decodeWord w = .ok (.flt ha hb)) ∧
    (op = 6 → decodeWord w = .ok (.fgt ha hb)) ∧
    (op = 7 → decodeWord w = .ok (.fle ha hb)) ∧
    (op = 8 → decodeWord w = .ok (.fge ha hb)) ∧
    (9 ≤ op → decodeWord w = .error (.reservedOp (w.extractLsb' 48 4)))

/-- 30_encoding R62, R71, 95_test_vectors: words written out from the encoding. -/
def Obligations.WordsWrittenOutDecode : Prop :=
  decodeTableWord 56 0x500003C004000 = some (.flt 0x3C00#16 0x4000#16) ∧
  decodeTableWord 56 0x800003C003C00 = some (.fge 0x3C00#16 0x3C00#16) ∧
  decodeTableWord 56 0x0000000000000 = some (.h2s 0x0000#16) ∧
  decodeTableWord 56 0x13EAAAAAB0000 = some (.s2h 0x3EAAAAAB#32) ∧
  decodeTableWord 56 0x200003C003C02 = some (.cmp 0x3C00#16 0x3C02#16) ∧
  decodeTableWord 56 0x3000035553555 = some (.feq 0x3555#16 0x3555#16) ∧
  decodeTableWord 56 0x400007E007E00 = some (.fne 0x7E00#16 0x7E00#16) ∧
  decodeTableWord 56 0x600007C007BFF = some (.fgt 0x7C00#16 0x7BFF#16) ∧
  decodeTableWord 56 0x700007E007E00 = some (.fle 0x7E00#16 0x7E00#16) ∧
  decodeTableWord 56 0x9000000000000 = none ∧
  decodeTableWord 56 0xF00003C003C00 = none

/-- Decoding the command word of a well-formed instruction gives it back, at every operand value. -/
def Obligations.DecodeOfEncodeIsTheInstruction : Prop :=
  ∀ i : Instr, i.wf = true → decodeWord (encodeWord i) = .ok i ∧ decodeTableWord 56 (encodeWord i).toNat = some i

/-- Encoding what a command word decodes to gives the word back with exactly the unread bits cleared: `a[31:16]` and `b` for op 0,
`b` for op 1, `a[31:16]` for the comparator (30_encoding R64, R71). -/
def Obligations.EncodeOfDecodeClearsOnlyUnreadBits : Prop :=
  ∀ (w : BitVec 52) (i : Instr), decodeWord w = .ok i →
    encodeWord i = w &&&
      (if w.extractLsb' 48 4 = 0 then 0xF0000FFFF0000#52
       else if w.extractLsb' 48 4 = 1 then 0xFFFFFFFFF0000#52
       else 0xF0000FFFFFFFF#52)

/-- 30_encoding R64: bits a command does not read have no effect on what it does, from any state. -/
def Obligations.UnreadBitsHaveNoEffect : Prop :=
  ∀ (c c' : Command) (s : State), c'.op = c.op →
    ((c.op = 0 ∧ c'.a.extractLsb' 0 16 = c.a.extractLsb' 0 16) ∨
     (c.op = 1 ∧ c'.a = c.a) ∨
     (2 ≤ c.op.toNat ∧ c.op.toNat ≤ 8 ∧ c'.a.extractLsb' 0 16 = c.a.extractLsb' 0 16 ∧ c'.b = c.b)) →
    ∃ v, step (s.presentNow c) = .next { s with y := some v } ∧ step (s.presentNow c') = .next { s with y := some v }

/-- 30_encoding R66, R67: every command with op 0 to 8 is legal for every value of `a` and `b`, every other one is reserved and refused. -/
def Obligations.LegalCommandsCompleteAndReservedOnesDoNot : Prop :=
  ∀ (c : Command) (s : State),
    (c.op.toNat ≤ 8 → ∃ v, step (s.presentNow c) = .next { s with y := some v }) ∧
    (9 ≤ c.op.toNat → step (s.presentNow c) = .refused (.reservedOp c.op))

/-- A reserved command is refused, whatever its operands and whatever the state; it has no successor. That it is refused when
its result is due, delivered or awaited, and not when it is accepted, is the model's choice (assumption 4). -/
def Obligations.ReservedCommandIsRefused : Prop :=
  ∀ (c : Command) (cs : List Command) (rest : List Event) (e : Event) (s : State),
    9 ≤ c.op.toNat → e = .deliver ∨ e = .await → s.agenda = e :: rest → s.inFlight = c :: cs →
    step s = .refused (.reservedOp c.op)

/-- 30_encoding R71: the command assembled from a line carries its op, zero in every field the command does not read, and the
spec's example encodes as it says. -/
def Obligations.AssembledCommandHasUnreadFieldsZero : Prop :=
  (∀ (names : AsmNames) (l : AsmLine) (c : Command), assembleLine names l = .ok c →
    c.op = l.op ∧ c.op.toNat ≤ 8 ∧ (l.op ≠ 1 → c.a.extractLsb' 16 16 = 0) ∧ (l.op.toNat ≤ 1 → c.b = 0)) ∧
  (∃ l, parseLine ['F', 'L', 'T', ' ', '0', 'x', '3', 'C', '0', '0', ',', ' ', '0', 'x', '4', '0', '0', '0'] = .ok (some l) ∧
    ∃ c, assembleLine [] l = .ok c ∧ c = { op := 5, a := 0x00003C00, b := 0x4000 } ∧ c.toWord = 0x500003C004000#52)

/-- 30_encoding R70: each source spelling is another spelling of one command, for all operand texts. -/
def Obligations.SourceSpellingsAreTheSameCommands : Prop :=
  ∀ x y : List Char,
    parseBody [.word "halfToSingle".toList, .lparen, .word x, .rparen] = parseBody [.word "H2S".toList, .word x] ∧
    parseBody [.word "singleToHalf".toList, .lparen, .word x, .rparen] = parseBody [.word "S2H".toList, .word x] ∧
    parseBody [.word "compare".toList, .lparen, .word x, .comma, .word y, .rparen] =
      parseBody [.word "CMP".toList, .word x, .comma, .word y] ∧
    parseBody [.word "equals".toList, .lparen, .word x, .comma, .word y, .rparen] =
      parseBody [.word "FEQ".toList, .word x, .comma, .word y] ∧
    parseBody [.word x, .rel 3, .word y] = parseBody [.word "FEQ".toList, .word x, .comma, .word y] ∧
    parseBody [.word x, .rel 4, .word y] = parseBody [.word "FNE".toList, .word x, .comma, .word y] ∧
    parseBody [.word x, .rel 5, .word y] = parseBody [.word "FLT".toList, .word x, .comma, .word y] ∧
    parseBody [.word x, .rel 6, .word y] = parseBody [.word "FGT".toList, .word x, .comma, .word y] ∧
    parseBody [.word x, .rel 7, .word y] = parseBody [.word "FLE".toList, .word x, .comma, .word y] ∧
    parseBody [.word x, .rel 8, .word y] = parseBody [.word "FGE".toList, .word x, .comma, .word y] ∧
    lexLine [] "a==b".toList = .ok [.word ['a'], .rel 3, .word ['b']] ∧
    lexLine [] "a != b".toList = .ok [.word ['a'], .rel 4, .word ['b']] ∧
    lexLine [] "a < b".toList = .ok [.word ['a'], .rel 5, .word ['b']] ∧
    lexLine [] "a>b".toList = .ok [.word ['a'], .rel 6, .word ['b']] ∧
    lexLine [] "a <=b".toList = .ok [.word ['a'], .rel 7, .word ['b']] ∧
    lexLine [] "a >= b".toList = .ok [.word ['a'], .rel 8, .word ['b']]

/-! ### The machine -/

/-- When the oldest command in flight is due and decodes to an instruction, the step runs that instruction on the state with
the command and the event taken off; `withFetchWord` presents exactly that command. -/
def Obligations.StepRunsTheDecodedInstruction : Prop :=
  (∀ (s : State) (e : Event) (rest : List Event) (c : Command) (cs : List Command) (i : Instr),
    e = .deliver ∨ e = .await → s.agenda = e :: rest → s.inFlight = c :: cs → decode c = .ok i →
    step s = exec i { s with agenda := rest, inFlight := cs }) ∧
  (∀ (s : State) (n w : Nat) (i : Instr), decodeTableWord n w = some i → step (s.withFetchWord n w) = exec i s)

/-- 60_exceptions R150, 40_bit_codec R99, 41_comparator R134: every instruction completes from every state, its result is the
same from every state, and it changes nothing but `y`: no command in flight, no event to come, no value read, no free value. -/
def Obligations.EveryInstructionCompletesAndChangesOnlyY : Prop :=
  ∀ i : Instr, ∃ v, ∀ s : State,
    exec i s = .next { y := some v, inFlight := s.inFlight, agenda := s.agenda, reads := s.reads, freeCount := s.freeCount }

/-- 30_encoding R61, R68: what a command puts on `y` is `F` of its 52-bit word alone, from any state and at any time. -/
def Obligations.ResultIsTheFunctionOfTheCommandWord : Prop :=
  ∀ (c : Command) (s : State),
    (∀ v, unitFunction c.toWord = some v → step (s.presentNow c) = .next { s with y := some v }) ∧
    (unitFunction c.toWord = none → step (s.presentNow c) = .refused (.reservedOp c.op)) ∧
    (unitFunction c.toWord = none ↔ 9 ≤ c.op.toNat)

/-- 10_state R31: a completed command puts its result on `y`; `y` changes only so, or by reset or loss of power; a read gives the
held value and leaves it; before the first result a read is a fault. -/
def Obligations.OutputHoldsTheLatestResult : Prop :=
  (∀ (s : State) (e : Event) (rest : List Event) (c : Command) (cs : List Command) (t : State),
    e = .deliver ∨ e = .await → s.agenda = e :: rest → s.inFlight = c :: cs → step s = .next t →
    t.y.isSome ∧ t.y = unitFunction c.toWord ∧ t.inFlight = cs) ∧
  (∀ s t : State, step s = .next t → t.y ≠ s.y →
    (∃ rest, (s.agenda = .deliver :: rest ∨ s.agenda = .await :: rest) ∧ s.inFlight ≠ []) ∨
    (∃ rest, s.agenda = .reset :: rest ∨ s.agenda = .powerCycle :: rest)) ∧
  (∀ (s : State) (rest : List Event) (v : BitVec 32), s.agenda = .readY :: rest → s.y = some v →
    step s = .next { s with agenda := rest, reads := s.reads ++ [v] }) ∧
  (∀ (s : State) (rest : List Event), s.y = none → s.agenda = .readY :: rest → step s = .fault .readOfUndefinedY)

/-- Reset, 70_reset_and_hazards section 1: at reset, and from any state by a reset, `y` has no defined value and nothing is in
flight; the results of the discarded commands never appear, however many due results pass. That a due result with nothing in
flight changes nothing, so that the run goes on through them with `y` undefined, is the model's choice (assumption 19). -/
def Obligations.ResetDiscardsOutputAndCommandsInFlight : Prop :=
  State.reset.y = none ∧ State.reset.inFlight = [] ∧
  (∀ (s : State) (rest : List Event), s.agenda = .reset :: rest →
    step s = .next { s with y := none, inFlight := [], agenda := rest }) ∧
  (∀ (s : State) (n : Nat), ∃ t, runAgenda s (.reset :: List.replicate n .deliver) = .next t ∧ t.y = none ∧ t.inFlight = [] ∧
    runAgenda s (.reset :: (List.replicate n .deliver ++ [.readY])) = .fault .readOfUndefinedY)

/-- 60_exceptions R164, on the value of `y`; that the commands in flight are lost with the power is the model's choice (assumption
10). -/
def Obligations.LossOfPowerLosesTheOutput : Prop :=
  ∀ (s : State) (rest : List Event), s.agenda = .powerCycle :: rest →
    step s = .next { s with y := none, inFlight := [], agenda := rest } ∧
    runAgenda s [.powerCycle, .readY] = .fault .readOfUndefinedY

/-- After a reset or the return of power, with nothing initialised, the first command gives the result its rule gives
(70_reset_and_hazards section 1), from any state. That the commands in flight are lost with the power, so that the new command's
result is the first, is the model's choice (assumption 10). -/
def Obligations.FirstCommandAfterResetGivesItsResult : Prop :=
  ∀ (s : State) (e : Event) (c : Command) (v : BitVec 32), e = .reset ∨ e = .powerCycle → unitFunction c.toWord = some v →
    runAgenda s [e, .issue c, .deliver] = .next { s with y := some v, inFlight := [], agenda := [] } ∧
    step (State.reset.presentNow c) = .next { State.reset with y := some v }

/-- An accepted command joins the commands in flight and changes nothing else. That a due result with nothing in flight changes
nothing is the model's choice (assumption 19), that waiting for one is stuck is U9 (assumption 8), and that a step with an empty
agenda changes nothing is the model's choice (assumption 2). -/
def Obligations.EventsChangeOnlyWhatTheyName : Prop :=
  ∀ (s : State) (rest : List Event),
    (∀ c, s.agenda = .issue c :: rest → step s = .next { s with agenda := rest, inFlight := s.inFlight ++ [c] }) ∧
    (s.agenda = .deliver :: rest → s.inFlight = [] → step s = .next { s with agenda := rest }) ∧
    (s.agenda = .await :: rest → s.inFlight = [] → step s = .fault .awaitedResultNeverComes) ∧
    (s.agenda = [] → step s = .next s)

/-- 70_reset_and_hazards R177, on the sampled value: it is a free value, a fresh one each time, and `y` and the commands in flight
keep theirs. It holds for every value of the free values and of their counter. That such a sample before the first result is a
fault is the model's reading (assumption 6). -/
def Obligations.SampleWhileInputsChangeIsAnyValue : Prop :=
  ∀ (s : State) (rest : List Event), s.agenda = .sampleChanging :: rest →
    (∀ v, s.y = some v →
      step s = .next { s with
        agenda := rest, reads := s.reads ++ [Config.freeSample s.freeCount], freeCount := s.freeCount + 1 }) ∧
    (s.y = none → step s = .fault .readOfUndefinedY)

/-- 20_memory R45, on idempotence: the same command presented any number of times gives the same `y` each time. -/
def Obligations.SameCommandGivesTheSameResultEachTime : Prop :=
  ∀ (s : State) (c : Command) (v : BitVec 32) (n : Nat), s.inFlight = [] → unitFunction c.toWord = some v →
    runAgenda s ((List.replicate (n + 1) [Event.issue c, .deliver, .readY]).flatten) =
      .next { s with y := some v, agenda := [], reads := s.reads ++ List.replicate (n + 1) v }

/-- 20_memory R48: whatever commands are in flight and whatever commands are accepted behind them, in whatever order, each gives
the value its own operands determine, one result for each command, in the order of acceptance. -/
def Obligations.ResultsLeaveInTheOrderOfAcceptance : Prop :=
  ∀ (s : State) (cs : List Command), s.inFlight.all Command.wf → cs.all Command.wf →
    ∃ vs : List (BitVec 32),
      vs.map some = (s.inFlight ++ cs).map (fun c => unitFunction c.toWord) ∧
      runAgenda s (cs.map Event.issue ++ (s.inFlight ++ cs).flatMap (fun _ => [Event.deliver, .readY])) =
        .next { s with y := vs.getLast?.or s.y, inFlight := [], agenda := [], reads := s.reads ++ vs }

/-- 70_reset_and_hazards section 2, result order and latency, for at most one command accepted in a cycle, which is the model's
reading (assumption 18): on a unit with latency `p`, after cycle `n - 1` `y` holds the result of the latest command accepted
at least `p` cycles earlier (what it held before, if there is none), and the commands in flight are those accepted since, in
order: each accepted command has exactly one result, at its cycle plus `p`. -/
def Obligations.ResultAppearsAfterTheLatency : Prop :=
  ∀ (p n : Nat) (offers : List (Option Command)) (s : State), s.inFlight = [] → (∀ c, some c ∈ offers → c.wf = true) →
    ∃ t, runAgenda s (timedAgenda p offers n) = .next t ∧
      t.y = (match lastOffered offers (n - p) with
        | some c => unitFunction c.toWord
        | none => s.y) ∧
      t.inFlight = (List.range' (n - p) (n - (n - p))).filterMap (offeredAt offers)

/-- The requester's duty is kept by every step: a state whose commands, in flight and to come, all have op 0 to 8 stays one. -/
def Obligations.StepKeepsCommandsLegal : Prop :=
  ∀ s t : State, s.legal = true → step s = .next t → t.legal = true

/-- The value on `y` is at all times the result of some command. -/
def Obligations.StepKeepsTheOutputAResult : Prop :=
  ∀ s t : State, s.yIsAResult → step s = .next t → t.yIsAResult

/-- The reset state meets both invariants. -/
def Obligations.ResetMeetsTheInvariants : Prop := State.reset.legal = true ∧ State.reset.yIsAResult

/-- While requesters use op 0 to 8 only, no run is ever refused; and when what the requester does next is due (R178), the step
answers a next state. -/
def Obligations.DutifulRequesterIsNeverRefused : Prop :=
  (∀ (s : State) (n : Nat) (r : Refusal), s.legal = true → Host.Core.run Sys2Proof.core n s ≠ .refused r) ∧
  (∀ s : State, s.legal = true → s.nextIsDue = true → ∃ t, step s = .next t)

/-! ### The Bit Codec -/

/-- 40_bit_codec R81, R82: H2S puts on `y` a Single with the sign of the Half and the exponent and mantissa its case gives; the
bits of the command it does not read play no part. -/
def Obligations.WidenedSingleHasTheFieldsOfItsCase : Prop :=
  ∀ (h : Half) (s : State), ∃ r : Single,
    exec (.h2s h) s = .next { s with y := some r } ∧
    (∀ c : Command, c.op = 0 → c.a.extractLsb' 0 16 = h → step (s.presentNow c) = .next { s with y := some r }) ∧
    (let E := (exp16 h).toNat
     let m := (man16 h).toNat
     sign32 r = sign16 h ∧
     (E = 0 ∧ m = 0 → (exp32 r).toNat = 0 ∧ (man32 r).toNat = 0) ∧
     (E = 0 ∧ m ≠ 0 → ∃ k, 1 ≤ k ∧ k ≤ 10 ∧ (m * 2 ^ k).testBit 10 = true ∧
       (∀ j, 1 ≤ j → j < k → (m * 2 ^ j).testBit 10 = false) ∧
       (exp32 r).toNat = 113 - k ∧ (man32 r).toNat = m * 2 ^ k % 2 ^ 10 * 2 ^ 13) ∧
     (1 ≤ E ∧ E ≤ 30 → (exp32 r).toNat = E + 112 ∧ (man32 r).toNat = m * 2 ^ 13) ∧
     (E = 31 ∧ m = 0 → (exp32 r).toNat = 255 ∧ (man32 r).toNat = 0) ∧
     (E = 31 ∧ m ≠ 0 → (exp32 r).toNat = 255 ∧ (man32 r).toNat = m * 2 ^ 13))

/-- 40_bit_codec R83: H2S is exact and keeps the sign, and no two Halves widen to one Single. -/
def Obligations.WideningIsExactAndInjective : Prop :=
  (∀ h : Half, isNaN16 h = false → val32 (widen h) = val16 h ∧ sign32 (widen h) = sign16 h) ∧
  (∀ h h' : Half, widen h = widen h' → h = h')

/-- 40_bit_codec R84: H2S of a NaN keeps sign and payload and forces no quiet bit. -/
def Obligations.WidenedNaNKeepsSignAndPayload : Prop :=
  (∀ (h : Half) (s : State), isNaN16 h = true →
    exec (.h2s h) s = .next { s with y := some (sign16 h ++ 0xFF#8 ++ man16 h ++ 0#13) } ∧
    isNaN32 (widen h) = true ∧ sign32 (widen h) = sign16 h ∧ isQuietNaN32 (widen h) = isQuietNaN16 h) ∧
  widen 0x7C01#16 = 0x7F802000#32 ∧ widen 0x7E00#16 = 0x7FC00000#32

/-- 95_test_vectors, section 1 and section 2: widenings the source and the spec write out. -/
def Obligations.WideningsWrittenOut : Prop :=
  widen 0x3C00#16 = 0x3F800000#32 ∧ widen 0x0001#16 = 0x33800000#32 ∧ widen 0x8000#16 = 0x80000000#32 ∧
  widen 0x0155#16 = 0x37AA8000#32 ∧ widen 0x03FF#16 = 0x387FC000#32 ∧ widen 0x0400#16 = 0x38800000#32 ∧
  widen 0x7BFF#16 = 0x477FE000#32 ∧ widen 0xFC00#16 = 0xFF800000#32

/-- 40_bit_codec R85: the rounding increment from the whole remainder, and its guard, round and sticky form: the highest
discarded bit, and whether any bit below it is set. -/
def Obligations.RoundingIncrementComparesTheWholeRemainder : Prop :=
  ∀ M sh lsb : Nat, 1 ≤ sh →
    (M % 2 ^ sh > 2 ^ (sh - 1) → rneInc M sh lsb = 1) ∧
    (M % 2 ^ sh = 2 ^ (sh - 1) → lsb = 1 → rneInc M sh lsb = 1) ∧
    (M % 2 ^ sh = 2 ^ (sh - 1) → lsb ≠ 1 → rneInc M sh lsb = 0) ∧
    (M % 2 ^ sh < 2 ^ (sh - 1) → rneInc M sh lsb = 0) ∧
    (rneInc M sh lsb = 1 ↔ M.testBit (sh - 1) = true ∧ (M % 2 ^ (sh - 1) ≠ 0 ∨ lsb = 1))

/-- 40_bit_codec R90: S2H puts on `y` the Half its case gives, zero-extended; the command's `b` plays no part. -/
def Obligations.NarrowedHalfFollowsTheRoundingAlgorithm : Prop :=
  ∀ (x : Single) (s : State), ∃ r : Half,
    exec (.s2h x) s = .next { s with y := some (0#16 ++ r) } ∧
    (∀ c : Command, c.op = 1 → c.a = x → step (s.presentNow c) = .next { s with y := some (0#16 ++ r) }) ∧
    (let E := (exp32 x).toNat
     let f := (man32 x).toNat
     let e : Int := (E : Int) - 127
     let M := 2 ^ 23 + f
     let mag := (mag16 r).toNat
     sign16 r = sign32 x ∧
     (E = 255 ∧ f ≠ 0 → mag = 0x7C00 + 0x200 + f / 2 ^ 13 % 2 ^ 9) ∧
     (E = 255 ∧ f = 0 → mag = 0x7C00) ∧
     (E = 0 → mag = 0) ∧
     (1 ≤ E ∧ E ≤ 254 ∧ e > 15 → mag = 0x7C00) ∧
     (1 ≤ E ∧ e < -25 → mag = 0) ∧
     (-14 ≤ e ∧ e ≤ 15 → mag = (e + 15).toNat * 2 ^ 10 + f / 2 ^ 13 + rneInc M 13 (((e + 15).toNat * 2 ^ 10 + f / 2 ^ 13) % 2)) ∧
     (-25 ≤ e ∧ e ≤ -15 → mag = M / 2 ^ (-1 - e).toNat + rneInc M (-1 - e).toNat (M / 2 ^ (-1 - e).toNat % 2)))

/-- 40_bit_codec R87: an infinity narrows to the infinity of its sign. -/
def Obligations.NarrowedInfinityIsTheSignedInfinity : Prop :=
  ∀ (x : Single) (s : State), isInf32 x = true →
    exec (.s2h x) s = .next { s with y := some (0#16 ++ sign32 x ++ 0b11111#5 ++ 0#10) } ∧
    (sign32 x = 0 → narrow x = 0x7C00#16) ∧ (sign32 x = 1 → narrow x = 0xFC00#16)

/-- 40_bit_codec R88: a NaN narrows to a quiet NaN of its sign with the next nine payload bits, never to an infinity. -/
def Obligations.NarrowedNaNIsAQuietNaN : Prop :=
  (∀ (x : Single) (s : State), isNaN32 x = true →
    exec (.s2h x) s = .next { s with y := some (0#16 ++ sign32 x ++ 0b11111#5 ++ 1#1 ++ (man32 x).extractLsb' 13 9) } ∧
    isQuietNaN16 (narrow x) = true ∧ sign16 (narrow x) = sign32 x) ∧
  narrow 0x7F800001#32 = 0x7E00#16

/-- 40_bit_codec R89: a finite Single narrows to an infinity exactly when its exponent is above 15 or rounding carries out of
exponent 15, that is from magnitude 65520 on; below that and from 65504 on it narrows to 65504. -/
def Obligations.OverflowIsJudgedAfterRounding : Prop :=
  ∀ (x : Single) (q : ℚ), val32 x = .num q →
    let e : Int := ((exp32 x).toNat : Int) - 127
    let f := (man32 x).toNat
    (isInf16 (narrow x) = true ↔ e > 15 ∨ (e = 15 ∧ f / 2 ^ 13 = 0x3FF ∧ f % 2 ^ 13 ≥ 0x1000)) ∧
    (isInf16 (narrow x) = true ↔ 65520 ≤ |q|) ∧
    (65504 ≤ |q| → |q| < 65520 → narrow x = packMagnitude (sign32 x) 0x7BFF#15)

/-- 40_bit_codec R92: narrowing never changes the sign. -/
def Obligations.NarrowingKeepsTheSign : Prop :=
  ∀ x : Single, (narrow x).getLsbD 15 = x.getLsbD 31

/-- 40_bit_codec R93: a finite Single narrows to the signed zero exactly up to magnitude 2^-25, Single subnormals among them; above
it and below 2^-24 it narrows to the smallest subnormal. -/
def Obligations.UnderflowGivesTheSignedZeroUpToHalfTheSmallest : Prop :=
  ∀ (x : Single) (q : ℚ), val32 x = .num q →
    let e : Int := ((exp32 x).toNat : Int) - 127
    (narrow x = sign32 x ++ 0#15 ↔ |q| ≤ 2 ^ (-25 : ℤ)) ∧
    ((exp32 x).toNat = 0 → narrow x = sign32 x ++ 0#15) ∧
    (e < -25 → narrow x = sign32 x ++ 0#15) ∧
    (e = -25 → man32 x = 0 → narrow x = sign32 x ++ 0#15) ∧
    (e = -25 → man32 x ≠ 0 → narrow x = sign32 x ++ 0#14 ++ 1#1)

/-- 40_bit_codec R94: the subnormal path, with the shift counted from the 11-bit and from the 24-bit significand, and the carry
into the smallest normal. -/
def Obligations.SubnormalResultIsTheShiftedSignificandRounded : Prop :=
  ∀ (x : Single) (e : Int), e = ((exp32 x).toNat : Int) - 127 → -25 ≤ e → e ≤ -15 →
    ∃ r sh : Nat, (sh : Int) = 13 + (-14 - e) ∧ (sh : Int) = -1 - e ∧ 14 ≤ sh ∧ sh ≤ 24 ∧
      r = (2 ^ 23 + (man32 x).toNat) / 2 ^ sh + rneInc (2 ^ 23 + (man32 x).toNat) sh ((2 ^ 23 + (man32 x).toNat) / 2 ^ sh % 2) ∧
      sign16 (narrow x) = sign32 x ∧ r ≤ 1024 ∧
      (r ≤ 1023 → exp16 (narrow x) = 0 ∧ (man16 (narrow x)).toNat = r) ∧
      (r = 1024 → mag16 (narrow x) = 0x0400#15)

/-- 40_bit_codec R95: the normal path: the exponent rebiased beside `f[22:13]`, plus the increment from `f[12:0]`, carrying from a
full mantissa into the exponent and, from exponent field 30, into infinity. -/
def Obligations.NormalResultCarriesIntoTheExponent : Prop :=
  ∀ (x : Single) (e : Int), e = ((exp32 x).toNat : Int) - 127 → -14 ≤ e → e ≤ 15 →
    ∃ inc : Nat,
      (inc = 1 ↔ (man32 x).toNat % 2 ^ 13 > 0x1000 ∨ ((man32 x).toNat % 2 ^ 13 = 0x1000 ∧ (man32 x).getLsbD 13 = true)) ∧
      (inc = 0 ∨ inc = 1) ∧ sign16 (narrow x) = sign32 x ∧
      (mag16 (narrow x)).toNat = (BitVec.ofInt 5 (e + 15) ++ (man32 x).extractLsb' 13 10).toNat + inc ∧
      ((man32 x).extractLsb' 13 10 = 0x3FF#10 → inc = 1 →
        (man16 (narrow x)).toNat = 0 ∧ ((exp16 (narrow x)).toNat : Int) = e + 16) ∧
      (e = 15 → (man32 x).extractLsb' 13 10 = 0x3FF#10 → inc = 1 → mag16 (narrow x) = 0x7C00#15)

/-- 40_bit_codec R91: S2H is correctly rounded to nearest, ties to even, with infinity from 65520 on and the sign kept. -/
def Obligations.NarrowingRoundsToNearestTiesToEven : Prop :=
  ∀ x : Single, isNaN32 x = false →
    sign16 (narrow x) = sign32 x ∧
    (isInf32 x = true → isInf16 (narrow x) = true) ∧
    (∀ q, val32 x = .num q → 65520 ≤ |q| → isInf16 (narrow x) = true) ∧
    (∀ q, val32 x = .num q → |q| < 65520 → ∃ p, val16 (narrow x) = .num p ∧
      ∀ (h : Half) (p' : ℚ), val16 h = .num p' →
        |p - q| ≤ |p' - q| ∧ (|p - q| = |p' - q| → p ≠ p' → (narrow x).getLsbD 0 = false))

/-- 40_bit_codec R96: narrowing a widened Half gives it back, zeros and infinities included; a NaN comes back with its quiet bit
set, a quiet one unchanged; narrowing is not injective. -/
def Obligations.NarrowOfWidenIsTheIdentity : Prop :=
  (∀ h : Half, isNaN16 h = false → narrow (widen h) = h) ∧
  (∀ h : Half, isNaN16 h = true → narrow (widen h) = h ||| 0x0200#16) ∧
  (∀ h : Half, isQuietNaN16 h = true → narrow (widen h) = h) ∧
  (∃ x x' : Single, x ≠ x' ∧ narrow x = narrow x')

/-- 40_bit_codec R97: narrowing is monotone on values. -/
def Obligations.NarrowingIsMonotone : Prop :=
  ∀ x x' : Single, isNaN32 x = false → isNaN32 x' = false → (val32 x).le (val32 x') = true →
    (val16 (narrow x)).le (val16 (narrow x')) = true

/-- 40_bit_codec R98: the ranges of every intermediate value, so that no cut to a field's width loses a bit. -/
def Obligations.NoIntermediateValueWraps : Prop :=
  (∀ (x : Single) (e : Int), e = ((exp32 x).toNat : Int) - 127 → 1 ≤ (exp32 x).toNat → (exp32 x).toNat ≤ 254 →
    -126 ≤ e ∧ e ≤ 127 ∧ significand x < 2 ^ 24 ∧
    (-25 ≤ e → e ≤ 15 → 13 ≤ narrowShift e ∧ narrowShift e ≤ 24 ∧ narrowBase x e ≤ 0x7BFF ∧ narrowRounded x e ≤ 0x7C00)) ∧
  (∀ h : Half, class16 h = .subnormal → 103 ≤ (exp32 (widen h)).toNat ∧ (exp32 (widen h)).toNat ≤ 112) ∧
  (∀ h : Half, class16 h = .normal → 113 ≤ (exp32 (widen h)).toNat ∧ (exp32 (widen h)).toNat ≤ 142) ∧
  (∀ h : Half, class16 h = .infinity ∨ class16 h = .nan → (exp32 (widen h)).toNat = 255)

/-! ### The comparator -/

/-- 41_comparator R121: the key orders the non-NaN Halves as their values do. -/
def Obligations.KeyOrdersHalvesByValue : Prop :=
  (∀ ha hb : Half, isNaN16 ha = false → isNaN16 hb = false →
    ((val16 ha).lt (val16 hb) = true ↔ key ha < key hb) ∧ ((val16 ha).same (val16 hb) = true ↔ key ha = key hb)) ∧
  (∀ h : Half, isNaN16 h = false → -31744 ≤ key h ∧ key h ≤ 31744) ∧
  key 0x0000#16 = 0 ∧ key 0x8000#16 = 0 ∧ key 0x7C00#16 = 31744 ∧ key 0xFC00#16 = -31744

/-- 41_comparator R122, R123: CMP puts the code of the outcome on `y`; `a[31:16]` plays no part. -/
def Obligations.CompareGivesTheCodeOfTheOutcome : Prop :=
  ∀ (ha hb : Half) (s : State), ∃ code : BitVec 2,
    exec (.cmp ha hb) s = .next { s with y := some (0#30 ++ code) } ∧
    (∀ c : Command, c.op = 2 → c.a.extractLsb' 0 16 = ha → c.b = hb →
      step (s.presentNow c) = .next { s with y := some (0#30 ++ code) }) ∧
    (isNaN16 ha ∨ isNaN16 hb → code = 0b11#2) ∧
    (isNaN16 ha = false → isNaN16 hb = false →
      (key ha < key hb → code = 0b00#2) ∧ (key ha = key hb → code = 0b01#2) ∧ (key hb < key ha → code = 0b10#2))

/-- 41_comparator R124: CMP is the ordering of the widened values. -/
def Obligations.CompareAgreesWithTheWidenedValues : Prop :=
  ∀ (ha hb : Half) (s : State),
    (isNaN32 (widen ha) ∨ isNaN32 (widen hb) → exec (.cmp ha hb) s = .next { s with y := some 3#32 }) ∧
    (isNaN32 (widen ha) = false → isNaN32 (widen hb) = false →
      ((val32 (widen ha)).lt (val32 (widen hb)) = true → exec (.cmp ha hb) s = .next { s with y := some 0#32 }) ∧
      ((val32 (widen ha)).same (val32 (widen hb)) = true → exec (.cmp ha hb) s = .next { s with y := some 1#32 }) ∧
      ((val32 (widen hb)).lt (val32 (widen ha)) = true → exec (.cmp ha hb) s = .next { s with y := some 2#32 }) ∧
      ((val32 (widen ha)).lt (val32 (widen hb)) = true ∨ (val32 (widen ha)).same (val32 (widen hb)) = true ∨
        (val32 (widen hb)).lt (val32 (widen ha)) = true))

/-- 41_comparator R125, R127: FEQ by bit patterns, with the zeros equal and every NaN unequal, and FNE its opposite. -/
def Obligations.EqualityPredicatesCompareBitPatterns : Prop :=
  ∀ (ha hb : Half) (s : State), ∃ p : Bool,
    exec (.feq ha hb) s = .next { s with y := some (if p then 1#32 else 0#32) } ∧
    exec (.fne ha hb) s = .next { s with y := some (if p then 0#32 else 1#32) } ∧
    (∀ c : Command, c.a.extractLsb' 0 16 = ha → c.b = hb →
      (c.op = 3 → step (s.presentNow c) = .next { s with y := some (if p then 1#32 else 0#32) }) ∧
      (c.op = 4 → step (s.presentNow c) = .next { s with y := some (if p then 0#32 else 1#32) })) ∧
    (isNaN16 ha ∨ isNaN16 hb → p = false) ∧
    (isNaN16 ha = false → isNaN16 hb = false →
      (isZero16 ha → isZero16 hb → p = true) ∧ (ha = hb → p = true) ∧
      (ha ≠ hb → (isZero16 ha = false ∨ isZero16 hb = false) → p = false))

/-- 41_comparator R126: FEQ is 1 exactly when CMP gives EQ. -/
def Obligations.EqualExactlyWhenCompareGivesEqual : Prop :=
  ∀ (ha hb : Half) (s : State),
    exec (.feq ha hb) s = .next { s with y := some 1#32 } ↔ exec (.cmp ha hb) s = .next { s with y := some 1#32 }

/-- 41_comparator R128 to R131: the ordering predicates from the outcome of CMP. -/
def Obligations.OrderingPredicatesFollowTheCompareCode : Prop :=
  ∀ (ha hb : Half) (s : State), ∃ code : BitVec 2,
    exec (.cmp ha hb) s = .next { s with y := some (0#30 ++ code) } ∧
    exec (.flt ha hb) s = .next { s with y := some (if code = 0b00#2 then 1#32 else 0#32) } ∧
    exec (.fgt ha hb) s = .next { s with y := some (if code = 0b10#2 then 1#32 else 0#32) } ∧
    exec (.fle ha hb) s = .next { s with y := some (if code = 0b00#2 ∨ code = 0b01#2 then 1#32 else 0#32) } ∧
    exec (.fge ha hb) s = .next { s with y := some (if code = 0b10#2 ∨ code = 0b01#2 then 1#32 else 0#32) } ∧
    (∀ c : Command, c.a.extractLsb' 0 16 = ha → c.b = hb →
      (c.op = 5 → step (s.presentNow c) = .next { s with y := some (if code = 0b00#2 then 1#32 else 0#32) }) ∧
      (c.op = 6 → step (s.presentNow c) = .next { s with y := some (if code = 0b10#2 then 1#32 else 0#32) }) ∧
      (c.op = 7 → step (s.presentNow c) = .next { s with y := some (if code = 0b00#2 ∨ code = 0b01#2 then 1#32 else 0#32) }) ∧
      (c.op = 8 → step (s.presentNow c) = .next { s with y := some (if code = 0b10#2 ∨ code = 0b01#2 then 1#32 else 0#32) }))

/-- 41_comparator R132: with a NaN on either side CMP gives UN, FNE 1 and every other predicate 0. -/
def Obligations.NaNIsUnorderedWithEverything : Prop :=
  ∀ (ha hb : Half) (s : State), isNaN16 ha ∨ isNaN16 hb →
    exec (.cmp ha hb) s = .next { s with y := some 3#32 } ∧
    exec (.feq ha hb) s = .next { s with y := some 0#32 } ∧
    exec (.fne ha hb) s = .next { s with y := some 1#32 } ∧
    exec (.flt ha hb) s = .next { s with y := some 0#32 } ∧
    exec (.fgt ha hb) s = .next { s with y := some 0#32 } ∧
    exec (.fle ha hb) s = .next { s with y := some 0#32 } ∧
    exec (.fge ha hb) s = .next { s with y := some 0#32 }

/-- 41_comparator R133: the order laws over operands that are not NaNs, and the two of them that fail with a NaN. -/
def Obligations.ComparatorIsATotalOrderOffNaN : Prop :=
  (∀ a b c : Half, isNaN16 a = false → isNaN16 b = false → isNaN16 c = false →
    ((lessHalf a b ∧ !equalHalf a b ∧ !greaterHalf a b) ∨ (!lessHalf a b ∧ equalHalf a b ∧ !greaterHalf a b) ∨
      (!lessHalf a b ∧ !equalHalf a b ∧ greaterHalf a b)) ∧
    lessHalf a b = greaterHalf b a ∧ lessEqualHalf a b = greaterEqualHalf b a ∧
    equalHalf a b = equalHalf b a ∧ notEqualHalf a b = notEqualHalf b a ∧
    (lessHalf a b → lessHalf b c → lessHalf a c) ∧ (lessEqualHalf a b → lessEqualHalf b c → lessEqualHalf a c) ∧
    lessEqualHalf a b = (lessHalf a b || equalHalf a b) ∧
    lessEqualHalf a b = !greaterHalf a b ∧ greaterEqualHalf a b = !lessHalf a b) ∧
  (∀ a b : Half, isNaN16 a ∨ isNaN16 b → lessEqualHalf a b ≠ !greaterHalf a b ∧ greaterEqualHalf a b ≠ !lessHalf a b)
end

