-- ==== Sys2Proof/Laws/Formats.lean ====
section
/-! SUPPORT. The fields of words put together from fields, and fields as numbers. -/

namespace Sys2Proof.Machine

/-- Concatenation as a number: the left word above the right one. -/
theorem toNat_append_eq {m n : Nat} (x : BitVec m) (y : BitVec n) : (x ++ y).toNat = x.toNat * 2 ^ n + y.toNat := by
  rw [BitVec.toNat_append, ← Nat.shiftLeft_add_eq_or_of_lt y.isLt, Nat.shiftLeft_eq]

theorem packSingle_toNat (sg : BitVec 1) (E : BitVec 8) (f : BitVec 23) :
    (packSingle sg E f).toNat = sg.toNat * 2147483648 + E.toNat * 8388608 + f.toNat := by
  have h : (packSingle sg E f).toNat = (sg.toNat * 2 ^ 8 + E.toNat) * 2 ^ 23 + f.toNat := by
    rw [← toNat_append_eq sg E, ← toNat_append_eq (sg ++ E) f]
    rfl
  rw [h]
  ring

theorem packHalf_toNat (sg : BitVec 1) (E : BitVec 5) (m : BitVec 10) :
    (packHalf sg E m).toNat = sg.toNat * 32768 + E.toNat * 1024 + m.toNat := by
  have h : (packHalf sg E m).toNat = (sg.toNat * 2 ^ 5 + E.toNat) * 2 ^ 10 + m.toNat := by
    rw [← toNat_append_eq sg E, ← toNat_append_eq (sg ++ E) m]
    rfl
  rw [h]
  ring

theorem packMagnitude_toNat (sg : BitVec 1) (r : BitVec 15) :
    (packMagnitude sg r).toNat = sg.toNat * 32768 + r.toNat := toNat_append_eq sg r

theorem widenMantissa_toNat (m : BitVec 10) : (widenMantissa m).toNat = m.toNat * 8192 := by
  have h : (widenMantissa m).toNat = m.toNat * 2 ^ 13 + (0#13).toNat := toNat_append_eq m 0#13
  simpa using h

theorem sign16_toNat (h : Half) : (sign16 h).toNat = h.toNat / 32768 := by
  have := h.isLt
  simp only [sign16, BitVec.extractLsb'_toNat, Nat.shiftRight_eq_div_pow]
  omega

theorem mag16_toNat (h : Half) : (mag16 h).toNat = h.toNat % 32768 := by
  simp only [mag16, BitVec.extractLsb'_toNat, Nat.shiftRight_eq_div_pow]
  omega

theorem exp16_toNat (h : Half) : (exp16 h).toNat = h.toNat / 1024 % 32 := by
  simp only [exp16, BitVec.extractLsb'_toNat, Nat.shiftRight_eq_div_pow]

theorem man16_toNat (h : Half) : (man16 h).toNat = h.toNat % 1024 := by
  simp only [man16, BitVec.extractLsb'_toNat, Nat.shiftRight_eq_div_pow]
  omega

theorem sign32_toNat (s : Single) : (sign32 s).toNat = s.toNat / 2147483648 := by
  have := s.isLt
  simp only [sign32, BitVec.extractLsb'_toNat, Nat.shiftRight_eq_div_pow]
  omega

theorem exp32_toNat (s : Single) : (exp32 s).toNat = s.toNat / 8388608 % 256 := by
  simp only [exp32, BitVec.extractLsb'_toNat, Nat.shiftRight_eq_div_pow]

theorem man32_toNat (s : Single) : (man32 s).toNat = s.toNat % 8388608 := by
  simp only [man32, BitVec.extractLsb'_toNat, Nat.shiftRight_eq_div_pow]
  omega

@[simp] theorem sign32_packSingle (sg : BitVec 1) (E : BitVec 8) (f : BitVec 23) : sign32 (packSingle sg E f) = sg := by
  apply BitVec.eq_of_toNat_eq
  rw [sign32_toNat, packSingle_toNat]
  have := E.isLt
  have := f.isLt
  omega

@[simp] theorem exp32_packSingle (sg : BitVec 1) (E : BitVec 8) (f : BitVec 23) : exp32 (packSingle sg E f) = E := by
  apply BitVec.eq_of_toNat_eq
  rw [exp32_toNat, packSingle_toNat]
  have := E.isLt
  have := f.isLt
  omega

@[simp] theorem man32_packSingle (sg : BitVec 1) (E : BitVec 8) (f : BitVec 23) : man32 (packSingle sg E f) = f := by
  apply BitVec.eq_of_toNat_eq
  rw [man32_toNat, packSingle_toNat]
  have := f.isLt
  omega

@[simp] theorem sign16_packHalf (sg : BitVec 1) (E : BitVec 5) (m : BitVec 10) : sign16 (packHalf sg E m) = sg := by
  apply BitVec.eq_of_toNat_eq
  rw [sign16_toNat, packHalf_toNat]
  have := E.isLt
  have := m.isLt
  omega

@[simp] theorem exp16_packHalf (sg : BitVec 1) (E : BitVec 5) (m : BitVec 10) : exp16 (packHalf sg E m) = E := by
  apply BitVec.eq_of_toNat_eq
  rw [exp16_toNat, packHalf_toNat]
  have := E.isLt
  have := m.isLt
  omega

@[simp] theorem man16_packHalf (sg : BitVec 1) (E : BitVec 5) (m : BitVec 10) : man16 (packHalf sg E m) = m := by
  apply BitVec.eq_of_toNat_eq
  rw [man16_toNat, packHalf_toNat]
  have := m.isLt
  omega

@[simp] theorem sign16_packMagnitude (sg : BitVec 1) (r : BitVec 15) : sign16 (packMagnitude sg r) = sg := by
  apply BitVec.eq_of_toNat_eq
  rw [sign16_toNat, packMagnitude_toNat]
  have := r.isLt
  omega

@[simp] theorem mag16_packMagnitude (sg : BitVec 1) (r : BitVec 15) : mag16 (packMagnitude sg r) = r := by
  apply BitVec.eq_of_toNat_eq
  rw [mag16_toNat, packMagnitude_toNat]
  have := r.isLt
  omega

/-- The exponent field is the magnitude's upper part. -/
theorem exp16_toNat_eq_mag (h : Half) : (exp16 h).toNat = (mag16 h).toNat / 1024 := by
  rw [exp16_toNat, mag16_toNat]
  omega

/-- The mantissa field is the magnitude's lower part. -/
theorem man16_toNat_eq_mag (h : Half) : (man16 h).toNat = (mag16 h).toNat % 1024 := by
  rw [man16_toNat, mag16_toNat]
  omega

/-- A Half as a number: its sign bit above its magnitude. -/
theorem half_toNat_eq (h : Half) : h.toNat = (sign16 h).toNat * 32768 + (mag16 h).toNat := by
  rw [sign16_toNat, mag16_toNat]
  omega

/-- A Single as a number: sign, exponent and mantissa side by side. -/
theorem single_toNat_eq (s : Single) :
    s.toNat = (sign32 s).toNat * 2147483648 + (exp32 s).toNat * 8388608 + (man32 s).toNat := by
  rw [sign32_toNat, exp32_toNat, man32_toNat]
  have := s.isLt
  omega

/-- Two Halves with the same sign and magnitude are the same word. -/
theorem half_ext {h h' : Half} (hs : sign16 h = sign16 h') (hm : mag16 h = mag16 h') : h = h' := by
  apply BitVec.eq_of_toNat_eq
  rw [half_toNat_eq h, half_toNat_eq h', hs, hm]

/-- The rounding increment is at most 1. -/
theorem rneInc_le_one (M sh lsb : Nat) : rneInc M sh lsb ≤ 1 := by
  simp only [rneInc]
  split
  · omega
  · split <;> omega

end Sys2Proof.Machine
end

