-- ==== Sys2Proof/Laws/State.lean ====
section
/-! SUPPORT. One lemma per field of State and update, so that no proof unfolds a record update. -/

namespace Sys2Proof.Machine

@[simp] theorem State.writeY_y (s : State) (v : BitVec 32) : (s.writeY v).y = some v := rfl
@[simp] theorem State.writeY_inFlight (s : State) (v : BitVec 32) : (s.writeY v).inFlight = s.inFlight := rfl
@[simp] theorem State.writeY_agenda (s : State) (v : BitVec 32) : (s.writeY v).agenda = s.agenda := rfl
@[simp] theorem State.writeY_reads (s : State) (v : BitVec 32) : (s.writeY v).reads = s.reads := rfl
@[simp] theorem State.writeY_freeCount (s : State) (v : BitVec 32) : (s.writeY v).freeCount = s.freeCount := rfl

@[simp] theorem State.accept_y (s : State) (c : Command) : (s.accept c).y = s.y := rfl
@[simp] theorem State.accept_inFlight (s : State) (c : Command) : (s.accept c).inFlight = s.inFlight ++ [c] := rfl
@[simp] theorem State.accept_agenda (s : State) (c : Command) : (s.accept c).agenda = s.agenda := rfl
@[simp] theorem State.accept_reads (s : State) (c : Command) : (s.accept c).reads = s.reads := rfl
@[simp] theorem State.accept_freeCount (s : State) (c : Command) : (s.accept c).freeCount = s.freeCount := rfl

@[simp] theorem State.clear_y (s : State) : s.clear.y = none := rfl
@[simp] theorem State.clear_inFlight (s : State) : s.clear.inFlight = [] := rfl
@[simp] theorem State.clear_agenda (s : State) : s.clear.agenda = s.agenda := rfl
@[simp] theorem State.clear_reads (s : State) : s.clear.reads = s.reads := rfl
@[simp] theorem State.clear_freeCount (s : State) : s.clear.freeCount = s.freeCount := rfl

@[simp] theorem State.powerLoss_y (s : State) : s.powerLoss.y = none := rfl
@[simp] theorem State.powerLoss_inFlight (s : State) : s.powerLoss.inFlight = [] := rfl
@[simp] theorem State.powerLoss_agenda (s : State) : s.powerLoss.agenda = s.agenda := rfl
@[simp] theorem State.powerLoss_reads (s : State) : s.powerLoss.reads = s.reads := rfl
@[simp] theorem State.powerLoss_freeCount (s : State) : s.powerLoss.freeCount = s.freeCount := rfl

@[simp] theorem State.presentNow_y (s : State) (c : Command) : (s.presentNow c).y = s.y := rfl
@[simp] theorem State.presentNow_inFlight (s : State) (c : Command) : (s.presentNow c).inFlight = c :: s.inFlight := rfl
@[simp] theorem State.presentNow_agenda (s : State) (c : Command) : (s.presentNow c).agenda = .deliver :: s.agenda := rfl
@[simp] theorem State.presentNow_reads (s : State) (c : Command) : (s.presentNow c).reads = s.reads := rfl
@[simp] theorem State.presentNow_freeCount (s : State) (c : Command) : (s.presentNow c).freeCount = s.freeCount := rfl

@[simp] theorem State.withFetchWord_y (s : State) (n w : Nat) : (s.withFetchWord n w).y = s.y := rfl
@[simp] theorem State.withFetchWord_inFlight (s : State) (n w : Nat) : (s.withFetchWord n w).inFlight = Command.ofWord (BitVec.ofNat 52 w) :: s.inFlight := rfl
@[simp] theorem State.withFetchWord_agenda (s : State) (n w : Nat) : (s.withFetchWord n w).agenda = .deliver :: s.agenda := rfl
@[simp] theorem State.withFetchWord_reads (s : State) (n w : Nat) : (s.withFetchWord n w).reads = s.reads := rfl
@[simp] theorem State.withFetchWord_freeCount (s : State) (n w : Nat) : (s.withFetchWord n w).freeCount = s.freeCount := rfl

@[simp] theorem State.reset_y : State.reset.y = none := rfl
@[simp] theorem State.reset_inFlight : State.reset.inFlight = [] := rfl
@[simp] theorem State.reset_agenda : State.reset.agenda = [] := rfl
@[simp] theorem State.reset_reads : State.reset.reads = [] := rfl
@[simp] theorem State.reset_freeCount : State.reset.freeCount = 0 := rfl

end Sys2Proof.Machine
end

