-- ==== Sys2Proof/Laws/Ops.lean ====
section
/-! SUPPORT. What each shared operation can do, said once: instructions, events and the step. -/

namespace Sys2Proof.Machine

/-- The value an instruction puts on `y`, for every state. -/
def resultOf : Instr → BitVec 32
  | .h2s h => widen h
  | .s2h x => halfOnY (narrow x)
  | .cmp ha hb => codeOnY (compareHalf ha hb)
  | .feq ha hb => bitOnY (equalHalf ha hb)
  | .fne ha hb => bitOnY (notEqualHalf ha hb)
  | .flt ha hb => bitOnY (lessHalf ha hb)
  | .fgt ha hb => bitOnY (greaterHalf ha hb)
  | .fle ha hb => bitOnY (lessEqualHalf ha hb)
  | .fge ha hb => bitOnY (greaterEqualHalf ha hb)

/-- The one inversion of `exec`: an instruction writes its result on `y` and does nothing else. -/
theorem exec_eq_writeY (i : Instr) (s : State) : exec i s = .next (s.writeY (resultOf i)) := by
  cases i <;> rfl

theorem readOutput_some {s : State} {v : BitVec 32} (h : s.y = some v) :
    readOutput s = .next { s with reads := s.reads ++ [v] } := by
  simp only [readOutput, h]

theorem readOutput_none {s : State} (h : s.y = none) : readOutput s = .fault .readOfUndefinedY := by
  simp only [readOutput, h]

theorem sampleOutput_some {s : State} {v : BitVec 32} (h : s.y = some v) :
    sampleOutput s = .next { s with reads := s.reads ++ [Config.freeSample s.freeCount], freeCount := s.freeCount + 1 } := by
  simp only [sampleOutput, h]

theorem sampleOutput_none {s : State} (h : s.y = none) : sampleOutput s = .fault .readOfUndefinedY := by
  simp only [sampleOutput, h]

theorem runCommand_ok {c : Command} {i : Instr} (h : decode c = .ok i) (s : State) :
    runCommand c s = .next (s.writeY (resultOf i)) := by
  simp only [runCommand, h, exec_eq_writeY]

theorem runCommand_reserved {c : Command} {op : BitVec 4} (h : decode c = .error (.reservedOp op)) (s : State) :
    runCommand c s = .refused (.reservedOp op) := by
  simp only [runCommand, h]

/-- All that a command can do when its result is due. -/
theorem runCommand_cases (c : Command) (s : State) :
    (∃ i, decode c = .ok i ∧ runCommand c s = .next (s.writeY (resultOf i))) ∨
    (∃ op, decode c = .error (.reservedOp op) ∧ runCommand c s = .refused (.reservedOp op)) := by
  cases h : decode c with
  | ok i => exact .inl ⟨i, rfl, runCommand_ok h s⟩
  | error r =>
    obtain ⟨op⟩ := r
    exact .inr ⟨op, rfl, runCommand_reserved h s⟩

theorem deliverOldest_nil {s : State} (h : s.inFlight = []) : deliverOldest s = .next s := by
  simp only [deliverOldest, h]

theorem deliverOldest_cons {s : State} {c : Command} {cs : List Command} (h : s.inFlight = c :: cs) :
    deliverOldest s = runCommand c { s with inFlight := cs } := by
  simp only [deliverOldest, h]

theorem awaitResult_nil {s : State} (h : s.inFlight = []) : awaitResult s = .fault .awaitedResultNeverComes := by
  simp only [awaitResult, h]

theorem awaitResult_cons {s : State} {c : Command} {cs : List Command} (h : s.inFlight = c :: cs) :
    awaitResult s = runCommand c { s with inFlight := cs } := by
  simp only [awaitResult, h]

theorem step_nil {s : State} (h : s.agenda = []) : step s = .next s := by
  simp only [step, nextEvent, h]

theorem step_cons {s : State} {e : Event} {rest : List Event} (h : s.agenda = e :: rest) :
    step s = handle e { s with agenda := rest } := by
  simp only [step, nextEvent, h]

/-- Presenting a command at once and stepping runs it on the state it was presented to. -/
theorem step_presentNow (s : State) (c : Command) : step (s.presentNow c) = runCommand c s := rfl

end Sys2Proof.Machine
end

