-- ==== Sys2Proof/Laws/Decode.lean ====
section
/-! SUPPORT. What the decoder answers, and the fields of a command word. -/

namespace Sys2Proof

/-- The command word as a number: `op`, `a` and `b` side by side (30_encoding R60). -/
theorem Command.toWord_toNat (c : Command) :
    c.toWord.toNat = c.op.toNat * 2 ^ 48 + c.a.toNat * 2 ^ 16 + c.b.toNat := by
  have h : c.toWord.toNat = (c.op.toNat * 2 ^ 32 + c.a.toNat) * 2 ^ 16 + c.b.toNat := by
    rw [← Machine.toNat_append_eq c.op c.a, ← Machine.toNat_append_eq (c.op ++ c.a) c.b]
    rfl
  rw [h]
  ring

theorem Command.toWord_op (c : Command) : c.toWord.extractLsb' 48 4 = c.op := by
  apply BitVec.eq_of_toNat_eq
  rw [BitVec.extractLsb'_toNat, Nat.shiftRight_eq_div_pow, c.toWord_toNat]
  have := c.a.isLt
  have := c.b.isLt
  have := c.op.isLt
  omega

theorem Command.toWord_a (c : Command) : c.toWord.extractLsb' 16 32 = c.a := by
  apply BitVec.eq_of_toNat_eq
  rw [BitVec.extractLsb'_toNat, Nat.shiftRight_eq_div_pow, c.toWord_toNat]
  have := c.a.isLt
  have := c.b.isLt
  omega

theorem Command.toWord_b (c : Command) : c.toWord.extractLsb' 0 16 = c.b := by
  apply BitVec.eq_of_toNat_eq
  rw [BitVec.extractLsb'_toNat, Nat.shiftRight_eq_div_pow, c.toWord_toNat]
  have := c.b.isLt
  omega

/-- The ports' values come back from the command word. -/
@[simp] theorem Command.ofWord_toWord (c : Command) : Command.ofWord c.toWord = c := by
  simp only [Command.ofWord, c.toWord_op, c.toWord_a, c.toWord_b]

/-- All that decoding can answer: an instruction for a legal command, the reserved op by name for every other. -/
theorem decode_cases (c : Command) :
    (c.wf = true ∧ ∃ i, decode c = .ok i) ∨ (c.wf = false ∧ decode c = .error (.reservedOp c.op)) := by
  have hop : c.op.toNat < 16 := c.op.isLt
  simp only [Command.wf, decode, decide_eq_true_eq, decide_eq_false_iff_not]
  generalize c.op.toNat = n at hop
  interval_cases n <;> simp

theorem decode_of_wf {c : Command} (h : c.wf = true) : ∃ i, decode c = .ok i := by
  rcases decode_cases c with ⟨-, hi⟩ | ⟨hw, -⟩
  · exact hi
  · simp [h] at hw

theorem decode_of_not_wf {c : Command} (h : c.wf = false) : decode c = .error (.reservedOp c.op) := by
  rcases decode_cases c with ⟨hw, -⟩ | ⟨-, he⟩
  · simp [h] at hw
  · exact he

end Sys2Proof
end

