-- ==== Sys2Proof/Laws/PerInstr.lean ====
section
/-! SUPPORT. Facts of every instruction as syntax, one lemma per constructor. -/

namespace Sys2Proof.Laws.EncodesLegally

/-- The command of an instruction is legal (30_encoding R67), carries the instruction's op number (R62) and no bit above its
operands on `a` where a Half is read (R71). -/
def Statement (i : Instr) : Prop :=
  i.wf = true ∧ (encode i).wf = true ∧ (encode i).op = i.op ∧ (i.op ≠ 1 → (encode i).a.extractLsb' 16 16 = 0)

theorem high_half_zero (h : Half) : (h.setWidth 32).extractLsb' 16 16 = 0 := by
  apply BitVec.eq_of_getLsbD_eq
  intro i hi
  simp

theorem h2s (h : Half) : Statement (.h2s h) := ⟨rfl, rfl, rfl, fun _ => high_half_zero h⟩
theorem s2h (x : Single) : Statement (.s2h x) := ⟨rfl, rfl, rfl, fun h => absurd rfl h⟩
theorem cmp (ha hb : Half) : Statement (.cmp ha hb) := ⟨rfl, rfl, rfl, fun _ => high_half_zero ha⟩
theorem feq (ha hb : Half) : Statement (.feq ha hb) := ⟨rfl, rfl, rfl, fun _ => high_half_zero ha⟩
theorem fne (ha hb : Half) : Statement (.fne ha hb) := ⟨rfl, rfl, rfl, fun _ => high_half_zero ha⟩
theorem flt (ha hb : Half) : Statement (.flt ha hb) := ⟨rfl, rfl, rfl, fun _ => high_half_zero ha⟩
theorem fgt (ha hb : Half) : Statement (.fgt ha hb) := ⟨rfl, rfl, rfl, fun _ => high_half_zero ha⟩
theorem fle (ha hb : Half) : Statement (.fle ha hb) := ⟨rfl, rfl, rfl, fun _ => high_half_zero ha⟩
theorem fge (ha hb : Half) : Statement (.fge ha hb) := ⟨rfl, rfl, rfl, fun _ => high_half_zero ha⟩

end Sys2Proof.Laws.EncodesLegally
end

