-- ==== Sys2Proof/Laws/Run.lean ====
section
/-! SUPPORT. Running a list of events, one event and one list at a time. -/

namespace Sys2Proof.Machine

@[simp] theorem runAgenda_nil (s : State) : runAgenda s [] = .next { s with agenda := [] } := rfl

/-- If the first event answers a next state, the rest runs from it. -/
theorem runAgenda_cons_next {s t : State} {e : Event} {rest : List Event}
    (h : handle e { s with agenda := rest } = .next t) : runAgenda s (e :: rest) = runAgenda t rest := by
  have hs : step { s with agenda := e :: rest } = .next t := h
  simp only [runAgenda, hs]

/-- If the first event is a fault, so is the run. -/
theorem runAgenda_cons_fault {s : State} {e : Event} {rest : List Event} {f : Fault}
    (h : handle e { s with agenda := rest } = .fault f) : runAgenda s (e :: rest) = .fault f := by
  have hs : step { s with agenda := e :: rest } = .fault f := h
  simp only [runAgenda, hs]

/-- If the first event is refused, so is the run. -/
theorem runAgenda_cons_refused {s : State} {e : Event} {rest : List Event} {r : Refusal}
    (h : handle e { s with agenda := rest } = .refused r) : runAgenda s (e :: rest) = .refused r := by
  have hs : step { s with agenda := e :: rest } = .refused r := h
  simp only [runAgenda, hs]

/-- A run does not look at the agenda it starts with. -/
theorem runAgenda_agenda (s : State) (old es : List Event) : runAgenda { s with agenda := old } es = runAgenda s es := by
  cases es <;> rfl

/-- An event does the same whatever is still to come, but for what is still to come. -/
theorem handle_agenda {s t : State} {e : Event} {rest : List Event} (h : handle e { s with agenda := rest } = .next t)
    (rest' : List Event) : handle e { s with agenda := rest' } = .next { t with agenda := rest' } := by
  have run : ∀ (c : Command) (cs : List Command), runCommand c { s with inFlight := cs, agenda := rest } = .next t →
      runCommand c { s with inFlight := cs, agenda := rest' } = .next { t with agenda := rest' } := by
    intro c cs h
    rcases runCommand_cases c { s with inFlight := cs, agenda := rest } with ⟨i, hd, hr⟩ | ⟨op, hd, hr⟩
    · rw [hr] at h
      cases h
      rw [runCommand_ok hd]
      rfl
    · rw [hr] at h
      cases h
  cases e with
  | issue c => cases h; rfl
  | reset => cases h; rfl
  | powerCycle => cases h; rfl
  | readY =>
    cases hy : s.y with
    | none => simp [handle, readOutput, hy] at h
    | some v => simp [handle, readOutput, hy] at h ⊢; subst h; simp
  | sampleChanging =>
    cases hy : s.y with
    | none => simp [handle, sampleOutput, hy] at h
    | some v => simp [handle, sampleOutput, hy] at h ⊢; subst h; simp
  | deliver =>
    cases hf : s.inFlight with
    | nil => simp [handle, deliverOldest, hf] at h ⊢; subst h; simp
    | cons c cs =>
      simp only [handle, deliverOldest, hf] at h ⊢
      exact run c cs h
  | await =>
    cases hf : s.inFlight with
    | nil => simp [handle, awaitResult, hf] at h
    | cons c cs =>
      simp only [handle, awaitResult, hf] at h ⊢
      exact run c cs h

/-- Two lists of events one after the other. -/
theorem runAgenda_append_next {s t : State} {es : List Event} (h : runAgenda s es = .next t) (fs : List Event) :
    runAgenda s (es ++ fs) = runAgenda t fs := by
  induction es generalizing s with
  | nil =>
    cases h
    exact (runAgenda_agenda s [] fs).symm
  | cons e rest ih =>
    have step_eq : step { s with agenda := e :: rest } = handle e { s with agenda := rest } := rfl
    cases hh : handle e { s with agenda := rest } with
    | next u =>
      rw [runAgenda_cons_next hh] at h
      rw [List.cons_append, runAgenda_cons_next (handle_agenda hh (rest ++ fs)), runAgenda_agenda]
      exact ih h
    | fault f => rw [runAgenda_cons_fault hh] at h; cases h
    | refused r => rw [runAgenda_cons_refused hh] at h; cases h

end Sys2Proof.Machine
end

