-- ==== Sys2Proof/Laws/Values.lean ====
section
/-! SUPPORT. The value of a finite word as an integer multiple of the smallest subnormal, with no case split. -/

namespace Sys2Proof.Machine

/-- A finite Half in units of 2^-24, without its sign. -/
def units16 (h : Half) : Nat :=
  if (exp16 h).toNat = 0 then (man16 h).toNat else (1024 + (man16 h).toNat) * 2 ^ ((exp16 h).toNat - 1)

/-- A finite Single in units of 2^-149, without its sign. -/
def units32 (s : Single) : Nat :=
  if (exp32 s).toNat = 0 then (man32 s).toNat else (8388608 + (man32 s).toNat) * 2 ^ ((exp32 s).toNat - 1)

theorem two_zpow_sub_eq {E : Nat} (hE : E ≠ 0) (b : Nat) :
    (2 : ℚ) ^ ((E : ℤ) - (b : ℤ)) = 2 ^ (E - 1) * 2 * (2 ^ b)⁻¹ := by
  rw [zpow_sub₀ two_ne_zero, zpow_natCast, zpow_natCast, div_eq_mul_inv, ← pow_succ, Nat.sub_add_cancel (by omega)]

theorem val16_eq_units {h : Half} (hE : exp16 h ≠ 31) :
    val16 h = .num (signFactor (sign16 h) * (units16 h : ℚ) / 2 ^ 24) := by
  by_cases h0 : exp16 h = 0
  · have hz : (exp16 h).toNat = 0 := by rw [h0]; rfl
    by_cases hm : man16 h = 0
    · simp [val16, class16, units16, h0, hm]
    · have hu : units16 h = (man16 h).toNat := if_pos hz
      rw [hu]
      simp only [val16, class16, h0, hm, if_true, if_false, Value.num.injEq]
      norm_num
      ring
  · have hpos : (exp16 h).toNat ≠ 0 := fun e => h0 (BitVec.eq_of_toNat_eq e)
    have hpow := two_zpow_sub_eq hpos 15
    simp only [Nat.cast_ofNat] at hpow
    simp only [val16, class16, units16, h0, hE, hpos, if_false, hpow, Value.num.injEq]
    push_cast
    norm_num
    ring

theorem val32_eq_units {s : Single} (hE : exp32 s ≠ 255) :
    val32 s = .num (signFactor (sign32 s) * (units32 s : ℚ) / 2 ^ 149) := by
  by_cases h0 : exp32 s = 0
  · have hz : (exp32 s).toNat = 0 := by rw [h0]; rfl
    by_cases hm : man32 s = 0
    · simp [val32, class32, units32, h0, hm]
    · have hu : units32 s = (man32 s).toNat := if_pos hz
      rw [hu]
      simp only [val32, class32, h0, hm, if_true, if_false, Value.num.injEq]
      norm_num
      ring
  · have hpos : (exp32 s).toNat ≠ 0 := fun e => h0 (BitVec.eq_of_toNat_eq e)
    have hpow := two_zpow_sub_eq hpos 127
    simp only [Nat.cast_ofNat] at hpow
    simp only [val32, class32, units32, h0, hE, hpos, if_false, hpow, Value.num.injEq]
    push_cast
    norm_num
    ring

end Sys2Proof.Machine
end

