-- ==== Sys2Proof/Tests/Slice0.lean ====
section
/-! SUPPORT. Tests on fixed values, their expected results from spec/95_test_vectors.md or the rule named, and a witness for the hypotheses of each statement. -/

namespace Sys2Proof.Tests

open Sys2Proof.Machine

/-- The value on `y` after a command word runs in one step from reset; `none` if the step answers no next state. -/
def yAfter (w : Nat) : Option (BitVec 32) :=
  match step (State.reset.withFetchWord 56 w) with
  | .next t => t.y
  | _ => none

/-- The `y` a step leaves, and why it stops otherwise. -/
def outcome (s : State) : String :=
  match step s with
  | .next _ => "next"
  | .fault .readOfUndefinedY => "readOfUndefinedY"
  | .fault .awaitedResultNeverComes => "awaitedResultNeverComes"
  | .refused _ => "refused"

/-- A state with a value on `y`, two commands in flight and the given agenda. -/
def busy (agenda : List Event) : State :=
  { y := some 7, inFlight := [⟨0, 0x3C00, 0⟩, ⟨5, 0x3C00, 0x4000⟩], agenda := agenda, reads := [1], freeCount := 3 }

/-! ### WellFormed: the check refuses an ill-formed term -/

theorem test_reserved_op_9_is_ill_formed : Command.wf ⟨9, 0, 0⟩ = false := by decide
theorem test_reserved_op_15_is_ill_formed : Command.wf ⟨15, 0x3C00, 0x3C00⟩ = false := by decide
theorem test_op_8_is_well_formed : Command.wf ⟨8, 0xFFFFFFFF, 0xFFFF⟩ = true := by decide
theorem test_instr_wf : Instr.wf (.fge 0xFFFF 0xFFFF) = true := by decide
theorem test_event_with_reserved_op_is_ill_formed : Event.wf (.issue ⟨12, 0, 0⟩) = false := by decide

/-! ### Decoding: words written out from 30_encoding R60, R62, with unread bits set where there are some -/

theorem test_decode_h2s : decodeTableWord 56 0x0FFFF3C001234 = some (.h2s 0x3C00) := by decide
theorem test_decode_s2h : decodeTableWord 56 0x1C0490FDBFFFF = some (.s2h 0xC0490FDB) := by decide
theorem test_decode_cmp : decodeTableWord 56 0x2ABCD3C004000 = some (.cmp 0x3C00 0x4000) := by decide
theorem test_decode_feq : decodeTableWord 56 0x3000080000001 = some (.feq 0x8000 0x0001) := by decide
theorem test_decode_fne : decodeTableWord 56 0x400007E007E01 = some (.fne 0x7E00 0x7E01) := by decide
theorem test_decode_flt : decodeTableWord 56 0x500003C004000 = some (.flt 0x3C00 0x4000) := by decide
theorem test_decode_fgt : decodeTableWord 56 0x600007C007BFF = some (.fgt 0x7C00 0x7BFF) := by decide
theorem test_decode_fle : decodeTableWord 56 0x7000080000000 = some (.fle 0x8000 0x0000) := by decide
theorem test_decode_fge : decodeTableWord 56 0x800003C003C00 = some (.fge 0x3C00 0x3C00) := by decide
theorem test_decode_reserved_9 : decodeWord 0x9000000000000 = .error (.reservedOp 9) := by rfl
theorem test_decode_reserved_15 : decodeWord 0xF00003C003C00 = .error (.reservedOp 15) := by rfl
theorem test_decode_too_long : decodeTableWord 56 0x10000000000000 = none := by decide
/-- 30_encoding R71, the spec's example. -/
theorem test_encode_flt : encodeWord (.flt 0x3C00 0x4000) = 0x500003C004000 := by decide

/-! ### One step of each instruction (95_test_vectors, the vector named) -/

/-- V-H2S-07. -/
theorem test_h2s_subnormal : yAfter 0x0000001550000 = some 0x37AA8000 := by decide
/-- V-H2S-33, unread bits set. -/
theorem test_h2s_unread_bits : yAfter 0x0FFFF3C001234 = some 0x3F800000 := by decide
/-- V-S2H-23 (conflict C1). -/
theorem test_s2h_three_quarters_of_smallest : yAfter 0x1334000000000 = some 0x0001 := by decide
/-- V-S2H-14: a tie that carries into infinity. -/
theorem test_s2h_carry_to_infinity : yAfter 0x1477FF0000000 = some 0x7C00 := by decide
/-- V-CMP-16: two negatives. -/
theorem test_cmp_negatives : yAfter 0x2000080018002 = some 2 := by decide
/-- V-CMP-10. -/
theorem test_cmp_unordered : yAfter 0x200007C007C01 = some 3 := by decide
/-- V-CMP-04. -/
theorem test_feq_zeros : yAfter 0x3000000008000 = some 1 := by decide
/-- V-CMP-06. -/
theorem test_feq_same_nan : yAfter 0x300007E007E00 = some 0 := by decide
/-- V-CMP-06. -/
theorem test_fne_same_nan : yAfter 0x400007E007E00 = some 1 := by decide
/-- V-CMP-13. -/
theorem test_flt_minus_infinity : yAfter 0x50000FC008001 = some 1 := by decide
/-- V-CMP-05. -/
theorem test_flt_zeros : yAfter 0x5000080000000 = some 0 := by decide
/-- V-CMP-16. -/
theorem test_fgt_negatives : yAfter 0x6000080018002 = some 1 := by decide
/-- V-CMP-07. -/
theorem test_fle_nan : yAfter 0x700007E003C00 = some 0 := by decide
/-- V-CMP-05. -/
theorem test_fle_zeros : yAfter 0x7000080000000 = some 1 := by decide
/-- V-CMP-23. -/
theorem test_fge_nan : yAfter 0x800003C007C01 = some 0 := by decide
/-- V-CMP-20. -/
theorem test_fge_equal : yAfter 0x80000C000C000 = some 1 := by decide

/-! ### Events (10_state R31, 70_reset_and_hazards R171, R175; U6, U7, U9) -/

theorem test_read_before_first_result : outcome { State.reset with agenda := [.readY] } = "readOfUndefinedY" := by decide
theorem test_sample_before_first_result :
    outcome { State.reset with agenda := [.sampleChanging] } = "readOfUndefinedY" := by decide
theorem test_await_nothing : outcome { State.reset with agenda := [.await] } = "awaitedResultNeverComes" := by decide
theorem test_reserved_refused : outcome (State.reset.withFetchWord 56 0xC00003C000000) = "refused" := by decide
/-- The oldest command first (R175): H2S of 1.0 before the FLT behind it. -/
theorem test_oldest_first :
    step (busy [.deliver]) = .next { busy [] with y := some 0x3F800000, inFlight := [⟨5, 0x3C00, 0x4000⟩] } := by rfl
theorem test_reset_discards : step (busy [.reset]) = .next { busy [] with y := none, inFlight := [] } := by rfl
theorem test_read_keeps_y : step (busy [.readY]) = .next { busy [] with reads := [1, 7] } := by rfl
/-- R175 with latency 1: the command accepted at cycle 0 has its result at cycle 1, behind the acceptance of the next. -/
theorem test_timed_agenda :
    timedAgenda 1 [some ⟨0, 0, 0⟩, some ⟨1, 0, 0⟩] 2 = [.issue ⟨0, 0, 0⟩, .issue ⟨1, 0, 0⟩, .deliver] := by decide

/-! ### The assembler (30_encoding R69) -/

/-- P1, line 2: the name is bound to the Half result of line 1, in any case, with a comment. -/
theorem test_asm_bound_name :
    (do
      let l ← parseLine "w = h2s h ; widen".toList
      return l.map fun l => (l.bind, (assembleLine [(['h'], boundValue 1 0x00003555)] l).toOption)) =
    (.ok (some (some ['w'], some ⟨0, 0x00003555, 0⟩)) : Except AsmError _) := by decide
theorem test_asm_half_too_wide : halfOperand [] (.lit 0x10000) = .error .tooWide := by rfl
theorem test_asm_single_too_wide : singleOperand [] (.lit 0x100000000) = .error .tooWide := by rfl
theorem test_asm_comment_line : parseLine "; nothing".toList = .ok none := by rfl

/-! ### Witnesses: the hypotheses of each statement are met -/

theorem witness_half_classes :
    ((exp16 0x8000).toNat = 0 ∧ (man16 0x8000).toNat = 0) ∧ ((exp16 0x0001).toNat = 0 ∧ (man16 0x0001).toNat ≠ 0) ∧
    (1 ≤ (exp16 0x0400).toNat ∧ (exp16 0x7BFF).toNat ≤ 30) ∧ ((exp16 0xFC00).toNat = 31 ∧ (man16 0xFC00).toNat = 0) ∧
    ((exp16 0x7C01).toNat = 31 ∧ (man16 0x7C01).toNat ≠ 0) := by decide
theorem witness_single_classes :
    ((exp32 0x80000000).toNat = 0 ∧ (man32 0x80000000).toNat = 0) ∧ ((exp32 0x1).toNat = 0 ∧ (man32 0x1).toNat ≠ 0) ∧
    (1 ≤ (exp32 0x00800000).toNat ∧ (exp32 0x7F7FFFFF).toNat ≤ 254) ∧
    ((exp32 0xFF800000).toNat = 255 ∧ (man32 0xFF800000).toNat = 0) ∧
    ((exp32 0x7F800001).toNat = 255 ∧ (man32 0x7F800001).toNat ≠ 0) := by decide
theorem witness_nan_ranges :
    (0x7C01 ≤ (mag16 0xFC01).toNat ∧ (mag16 0xFC01).toNat ≤ 0x7DFF) ∧ 0x7E00 ≤ (mag16 0x7E00).toNat := by decide
theorem witness_op_field :
    ((0x0000000000000#52).extractLsb' 48 4).toNat = 0 ∧ ((0x1FFFFFFFFFFFF#52).extractLsb' 48 4).toNat = 1 ∧
    ((0x2FFFFFFFFFFFF#52).extractLsb' 48 4).toNat = 2 ∧ ((0x3FFFFFFFFFFFF#52).extractLsb' 48 4).toNat = 3 ∧
    ((0x4FFFFFFFFFFFF#52).extractLsb' 48 4).toNat = 4 ∧ ((0x5FFFFFFFFFFFF#52).extractLsb' 48 4).toNat = 5 ∧
    ((0x6FFFFFFFFFFFF#52).extractLsb' 48 4).toNat = 6 ∧ ((0x7FFFFFFFFFFFF#52).extractLsb' 48 4).toNat = 7 ∧
    ((0x8FFFFFFFFFFFF#52).extractLsb' 48 4).toNat = 8 ∧ 9 ≤ ((0x9000000000000#52).extractLsb' 48 4).toNat := by decide
theorem witness_decode_of_encode : Instr.wf (.cmp 0xFFFF 0x8000) = true := by decide
theorem witness_encode_of_decode :
    decodeWord 0x0FFFF3C00FFFF = .ok (.h2s 0x3C00) ∧ decodeWord 0x1FFFFFFFFFFFF = .ok (.s2h 0xFFFFFFFF) ∧
    decodeWord 0x2FFFF3C004000 = .ok (.cmp 0x3C00 0x4000) := ⟨rfl, rfl, rfl⟩
theorem witness_unread_bits :
    (∃ c c' : Command, c'.op = c.op ∧ c ≠ c' ∧ c.op = 0 ∧ c'.a.extractLsb' 0 16 = c.a.extractLsb' 0 16) ∧
    (∃ c c' : Command, c'.op = c.op ∧ c ≠ c' ∧ c.op = 1 ∧ c'.a = c.a) ∧
    (∃ c c' : Command, c'.op = c.op ∧ c ≠ c' ∧ 2 ≤ c.op.toNat ∧ c.op.toNat ≤ 8 ∧
      c'.a.extractLsb' 0 16 = c.a.extractLsb' 0 16 ∧ c'.b = c.b) :=
  ⟨⟨⟨0, 0xFFFF3C00, 1⟩, ⟨0, 0x3C00, 0⟩, by decide⟩, ⟨⟨1, 5, 0xFFFF⟩, ⟨1, 5, 0⟩, by decide⟩,
    ⟨⟨8, 0xFFFF3C00, 4⟩, ⟨8, 0x3C00, 4⟩, by decide⟩⟩
theorem witness_legal_and_reserved : (Command.mk 8 0 0).op.toNat ≤ 8 ∧ 9 ≤ (Command.mk 9 0 0).op.toNat := by decide
theorem witness_reserved_due :
    9 ≤ (Command.mk 12 0x3C00 0).op.toNat ∧
    ({ busy [.await] with inFlight := [⟨12, 0x3C00, 0⟩] } : State).agenda = .await :: [] ∧
    ({ busy [.await] with inFlight := [⟨12, 0x3C00, 0⟩] } : State).inFlight = ⟨12, 0x3C00, 0⟩ :: [] := by decide
theorem witness_assembled :
    assembleLine [] { bind := none, op := 1, args := [.lit 0xFFFFFFFF] } = .ok ⟨1, 0xFFFFFFFF, 0⟩ ∧
    assembleLine [] { bind := none, op := 0, args := [.lit 0xFFFF] } = .ok ⟨0, 0x0000FFFF, 0⟩ ∧
    assembleLine [] { bind := none, op := 8, args := [.lit 0xFFFF, .lit 1] } = .ok ⟨8, 0x0000FFFF, 1⟩ := ⟨rfl, rfl, rfl⟩
theorem witness_step_runs :
    (busy [.deliver]).agenda = .deliver :: [] ∧ (busy [.deliver]).inFlight = ⟨0, 0x3C00, 0⟩ :: [⟨5, 0x3C00, 0x4000⟩] ∧
    decode ⟨0, 0x3C00, 0⟩ = .ok (.h2s 0x3C00) ∧ (busy [.await]).agenda = .await :: [] ∧
    decodeTableWord 56 0x500003C004000 = some (.flt 0x3C00 0x4000) := ⟨rfl, rfl, rfl, rfl, by decide⟩
theorem witness_unit_function :
    unitFunction (Command.toWord ⟨0, 0x3C00, 0⟩) = some 0x3F800000 ∧ unitFunction (Command.toWord ⟨9, 0, 0⟩) = none := by decide
theorem witness_output_holds :
    (∃ t, step (busy [.deliver]) = .next t ∧ t.y ≠ (busy [.deliver]).y) ∧
    (∃ t, step (busy [.await]) = .next t ∧ t.y ≠ (busy [.await]).y) ∧
    (∃ t, step (busy [.reset]) = .next t ∧ t.y ≠ (busy [.reset]).y) ∧
    ((busy [.readY]).agenda = .readY :: [] ∧ (busy [.readY]).y = some 7) ∧
    (State.reset.y = none ∧ ({ State.reset with agenda := [.readY] } : State).agenda = .readY :: []) :=
  ⟨⟨_, rfl, by decide⟩, ⟨_, rfl, by decide⟩, ⟨_, rfl, by decide⟩, by decide, by decide⟩
theorem witness_reset_and_power : (busy [.reset]).agenda = .reset :: [] ∧ (busy [.powerCycle]).agenda = .powerCycle :: [] := by
  decide
theorem witness_first_command : unitFunction (Command.toWord ⟨1, 0x3F801000, 0⟩) = some 0x3C00 := by decide
theorem witness_events :
    (busy [.issue ⟨2, 0, 0⟩]).agenda = .issue ⟨2, 0, 0⟩ :: [] ∧
    ({ busy [.deliver] with inFlight := [] } : State).agenda = .deliver :: [] ∧
    ({ busy [.await] with inFlight := [] } : State).inFlight = [] ∧ (busy []).agenda = [] := by decide
theorem witness_sample :
    ((busy [.sampleChanging]).agenda = .sampleChanging :: [] ∧ (busy [.sampleChanging]).y = some 7) ∧
    ({ busy [.sampleChanging] with y := none } : State).y = none := by decide
theorem witness_same_command : State.reset.inFlight = [] ∧ unitFunction (Command.toWord ⟨8, 0x3C00, 0x3C00⟩) = some 1 := by
  decide
theorem witness_results_in_order :
    (busy []).inFlight.all Command.wf = true ∧ [Command.mk 8 0 0, Command.mk 2 1 1].all Command.wf = true := by decide
theorem witness_latency : State.reset.inFlight = [] ∧ ∀ c, some c ∈ [some (Command.mk 8 0 0), none] → c.wf = true := by
  refine ⟨rfl, ?_⟩
  intro c hc
  simp at hc
  subst hc
  decide
theorem witness_legal_step : (busy [.issue ⟨8, 0, 0⟩]).legal = true ∧ ∃ t, step (busy [.issue ⟨8, 0, 0⟩]) = .next t :=
  ⟨by decide, _, rfl⟩
theorem witness_y_is_a_result :
    State.yIsAResult { busy [.deliver] with y := some 0x3F800000 } ∧
    ∃ t, step { busy [.deliver] with y := some 0x3F800000 } = .next t := by
  refine ⟨?_, _, rfl⟩
  intro v hv
  refine ⟨⟨0, 0x3C00, 0⟩, ?_⟩
  rw [← hv]
  decide
theorem witness_next_is_due :
    (busy [.await]).legal = true ∧ (busy [.await]).nextIsDue = true ∧ (busy [.readY]).nextIsDue = true ∧
    (busy [.sampleChanging]).nextIsDue = true ∧ (busy []).nextIsDue = true := by decide
theorem witness_h2s_command :
    (Command.mk 0 0xFFFF3C00 1).op = 0 ∧ (Command.mk 0 0xFFFF3C00 1).a.extractLsb' 0 16 = 0x3C00#16 := by decide
theorem witness_not_nan_and_nan :
    isNaN16 0xFC00 = false ∧ isNaN16 0x7C01 = true ∧ isNaN16 0xFFFF = true ∧ isQuietNaN16 0x7E00 = true ∧
    isNaN32 0x7F800001 = true ∧ isNaN32 0xFF800000 = false ∧ isInf32 0xFF800000 = true ∧ isInf32 0x7F800000 = true := by decide
theorem witness_rounding_increment :
    (5 : Nat) % 2 ^ 2 < 2 ^ (2 - 1) ∧ (6 : Nat) % 2 ^ 2 = 2 ^ (2 - 1) ∧ (7 : Nat) % 2 ^ 2 > 2 ^ (2 - 1) := by decide
theorem witness_narrow_cases :
    ((exp32 0x7F800001).toNat = 255 ∧ (man32 0x7F800001).toNat ≠ 0) ∧ ((exp32 0x7F800000).toNat = 255 ∧ (man32 0x7F800000).toNat = 0) ∧
    (exp32 0x807FFFFF).toNat = 0 ∧ ((exp32 0x47800000).toNat : Int) - 127 = 16 ∧ ((exp32 0x7F7FFFFF).toNat : Int) - 127 = 127 ∧
    ((exp32 0x32FFFFFF).toNat : Int) - 127 = -26 ∧ ((exp32 0x00800000).toNat : Int) - 127 = -126 ∧
    ((exp32 0x38800000).toNat : Int) - 127 = -14 ∧ ((exp32 0x477FFFFF).toNat : Int) - 127 = 15 ∧
    ((exp32 0x33000000).toNat : Int) - 127 = -25 ∧ ((exp32 0x387FFFFF).toNat : Int) - 127 = -15 := by decide
theorem witness_underflow :
    (((exp32 0xB3000000).toNat : Int) - 127 = -25 ∧ man32 0xB3000000 = 0) ∧
    (((exp32 0x33000001).toNat : Int) - 127 = -25 ∧ man32 0x33000001 ≠ 0) := by decide
theorem witness_carry :
    (man32 0x3FFFF000).extractLsb' 13 10 = 0x3FF#10 ∧ (man32 0x3FFFF000).toNat % 2 ^ 13 = 0x1000 ∧ (man32 0x3FFFF000).getLsbD 13 = true ∧
    ((exp32 0x477FF000).toNat : Int) - 127 = 15 ∧ (man32 0x477FF000).extractLsb' 13 10 = 0x3FF#10 := by decide
theorem witness_subnormal_carry :
    (2 ^ 23 + (man32 0x387FE000).toNat) / 2 ^ 14 + rneInc (2 ^ 23 + (man32 0x387FE000).toNat) 14
      ((2 ^ 23 + (man32 0x387FE000).toNat) / 2 ^ 14 % 2) = 1024 := by decide
/-- Values of finite Singles at both ends of the ranges the overflow and underflow statements speak of. -/
theorem witness_finite_values :
    val32 0x477FE000 = .num 65504 ∧ val32 0x477FF000 = .num 65520 ∧ val32 0x3F800000 = .num 1 ∧ val32 0x80000000 = .num 0 := by
  refine ⟨?_, ?_, ?_, ?_⟩ <;> simp [val32, class32, exp32, man32, sign32, signFactor] <;> norm_num
theorem witness_half_values : val16 0x7BFF = .num 65504 ∧ val16 0x3C01 = .num (1025 / 1024) := by
  refine ⟨?_, ?_⟩ <;> simp [val16, class16, exp16, man16, sign16, signFactor] <;> norm_num
theorem witness_monotone :
    isNaN32 0xFF800000 = false ∧ isNaN32 0x3F800000 = false ∧ (val32 0xFF800000).le (val32 0x3F800000) = true := by
  refine ⟨by decide, by decide, ?_⟩
  rw [witness_finite_values.2.2.1]
  rfl
theorem witness_widened_classes :
    class16 0x0001 = .subnormal ∧ class16 0x03FF = .subnormal ∧ class16 0x0400 = .normal ∧ class16 0x7BFF = .normal ∧
    class16 0x7C00 = .infinity ∧ class16 0x7C01 = .nan := by decide
theorem witness_compare_cases :
    (isNaN16 0x7C01 ∨ isNaN16 0x3C00) ∧ key 0xFC00 < key 0x8001 ∧ key 0x0000 = key 0x8000 ∧ key 0x8002 < key 0x8001 ∧
    isNaN16 0xFC00 = false ∧ isNaN16 0x8001 = false ∧ isNaN16 0x0000 = false ∧ isNaN16 0x8000 = false := by decide
theorem witness_widened_compare :
    isNaN32 (widen 0x7C01) = true ∧ isNaN32 (widen 0xFC00) = false ∧ isNaN32 (widen 0x7C00) = false ∧
    (val32 (widen 0xFC00)).lt (val32 (widen 0x7C00)) = true ∧ (val32 (widen 0x7C00)).same (val32 (widen 0x7C00)) = true := by
  decide
theorem witness_equality_cases :
    (isZero16 0x0000 ∧ isZero16 0x8000) ∧ ((0x3C00 : Half) ≠ 0x3C01 ∧ isZero16 0x3C00 = false) ∧
    ((Command.mk 3 0xFFFF3C00 0x4000).a.extractLsb' 0 16 = 0x3C00#16 ∧ (Command.mk 3 0xFFFF3C00 0x4000).b = 0x4000#16) := by decide
theorem witness_order_laws :
    isNaN16 0xFC00 = false ∧ isNaN16 0x0000 = false ∧ isNaN16 0x7C00 = false ∧ lessHalf 0xFC00 0x0000 ∧ lessHalf 0x0000 0x7C00 ∧
    lessEqualHalf 0x0000 0x8000 ∧ lessEqualHalf 0x8000 0x0001 := by decide

end Sys2Proof.Tests
end

section
/-! What a command, an event and a step do to `y` (10_state R31). -/

namespace Sys2Proof.Machine

/-- A command that decodes has, as the value of `F` on its word, the result of its instruction (30_encoding R61). -/
theorem unitFunction_of_decode_ok {c : Command} {i : Instr} (h : decode c = .ok i) :
    unitFunction c.toWord = some (resultOf i) := by
  simp only [unitFunction, c.toWord_op, c.toWord_a, c.toWord_b]
  simp only [decode] at h
  split at h <;> cases h
  all_goals
    rename_i hn
    have hop : c.op = BitVec.ofNat 4 c.op.toNat := by simp
    rw [hop, hn]
    rfl

/-- A command whose result comes writes the value of `F` on `y` and changes nothing else. -/
theorem runCommand_next {c : Command} {s t : State} (h : runCommand c s = .next t) :
    ∃ v, unitFunction c.toWord = some v ∧ t = s.writeY v := by
  rcases runCommand_cases c s with ⟨i, hd, hr⟩ | ⟨op, -, hr⟩ <;> rw [hr] at h <;> cases h
  exact ⟨resultOf i, unitFunction_of_decode_ok hd, rfl⟩

/-- With a command in flight, a due result and a waiting requester both run the oldest one. -/
theorem handle_due {e : Event} (he : e = .deliver ∨ e = .await) {s : State} {c : Command} {cs : List Command}
    (hf : s.inFlight = c :: cs) : handle e s = runCommand c { s with inFlight := cs } := by
  rcases he with rfl | rfl
  · exact deliverOldest_cons hf
  · exact awaitResult_cons hf

/-- An event keeps `y`, unless it brings the result of a command in flight, resets the unit or takes its power. -/
theorem handle_keeps_y {e : Event} {s t : State} (h : handle e s = .next t) :
    t.y = s.y ∨ ((e = .deliver ∨ e = .await) ∧ s.inFlight ≠ []) ∨ e = .reset ∨ e = .powerCycle := by
  cases e with
  | issue c => cases h; exact .inl rfl
  | reset => exact .inr (.inr (.inl rfl))
  | powerCycle => exact .inr (.inr (.inr rfl))
  | deliver =>
    by_cases hf : s.inFlight = []
    · rw [handle, deliverOldest_nil hf] at h
      cases h
      exact .inl rfl
    · exact .inr (.inl ⟨.inl rfl, hf⟩)
  | await =>
    by_cases hf : s.inFlight = []
    · rw [handle, awaitResult_nil hf] at h
      cases h
    · exact .inr (.inl ⟨.inr rfl, hf⟩)
  | readY =>
    cases hy : s.y with
    | none => rw [handle, readOutput_none hy] at h; cases h
    | some v => rw [handle, readOutput_some hy] at h; cases h; exact .inl hy
  | sampleChanging =>
    cases hy : s.y with
    | none => rw [handle, sampleOutput_none hy] at h; cases h
    | some v => rw [handle, sampleOutput_some hy] at h; cases h; exact .inl hy

/-- A step in which the oldest command's result comes puts `F` of that command on `y` and takes it out of flight. -/
theorem step_due_next {s t : State} {e : Event} {rest : List Event} {c : Command} {cs : List Command}
    (he : e = .deliver ∨ e = .await) (ha : s.agenda = e :: rest) (hf : s.inFlight = c :: cs) (h : step s = .next t) :
    t.y.isSome ∧ t.y = unitFunction c.toWord ∧ t.inFlight = cs := by
  rw [step_cons ha, handle_due he (s := { s with agenda := rest }) hf] at h
  obtain ⟨v, hv, rfl⟩ := runCommand_next h
  exact ⟨rfl, hv.symm, rfl⟩

/-- A step that changes `y` brings a result, resets the unit or takes its power. -/
theorem step_changes_y {s t : State} (h : step s = .next t) (hy : t.y ≠ s.y) :
    (∃ rest, (s.agenda = .deliver :: rest ∨ s.agenda = .await :: rest) ∧ s.inFlight ≠ []) ∨
    (∃ rest, s.agenda = .reset :: rest ∨ s.agenda = .powerCycle :: rest) := by
  cases ha : s.agenda with
  | nil =>
    rw [step_nil ha] at h
    cases h
    exact absurd rfl hy
  | cons e rest =>
    rw [step_cons ha] at h
    rcases handle_keeps_y h with hkeep | ⟨he, hf⟩ | he
    · exact absurd hkeep hy
    · exact .inl ⟨rest, by simpa using he, hf⟩
    · exact .inr ⟨rest, by simpa using he⟩

/-- Settles O17: a due step runs the oldest command, every other event but reset and loss of power keeps `y`, and a read
answers by whether `y` has a value. -/
theorem outputHoldsTheLatestResult : Obligations.OutputHoldsTheLatestResult := by
  refine ⟨fun s e rest c cs t => step_due_next, fun s t => step_changes_y, ?_, ?_⟩
  · intro s rest v ha hy
    rw [step_cons ha]
    exact readOutput_some hy
  · intro s rest hy ha
    rw [step_cons ha]
    exact readOutput_none hy

end Sys2Proof.Machine
end

section
/-! The classes of 10_state R27 and R28 from the fields read as numbers, the predicates of R29 by class, and the value of each
class. -/

namespace Sys2Proof.Machine

theorem class16_eq_zero {h : Half} (hE : (exp16 h).toNat = 0) (hm : (man16 h).toNat = 0) : class16 h = .zero := by
  simp [class16, ← BitVec.toNat_inj, hE, hm]

theorem class16_eq_subnormal {h : Half} (hE : (exp16 h).toNat = 0) (hm : (man16 h).toNat ≠ 0) :
    class16 h = .subnormal := by
  simp [class16, ← BitVec.toNat_inj, hE, hm]

theorem class16_eq_normal {h : Half} (hlo : 1 ≤ (exp16 h).toNat) (hhi : (exp16 h).toNat ≤ 30) : class16 h = .normal := by
  have h0 : (exp16 h).toNat ≠ 0 := by omega
  have h31 : (exp16 h).toNat ≠ 31 := by omega
  simp [class16, ← BitVec.toNat_inj, h0, h31]

theorem class16_eq_infinity {h : Half} (hE : (exp16 h).toNat = 31) (hm : (man16 h).toNat = 0) :
    class16 h = .infinity := by
  simp [class16, ← BitVec.toNat_inj, hE, hm]

theorem class16_eq_nan {h : Half} (hE : (exp16 h).toNat = 31) (hm : (man16 h).toNat ≠ 0) : class16 h = .nan := by
  simp [class16, ← BitVec.toNat_inj, hE, hm]

theorem class32_eq_zero {s : Single} (hE : (exp32 s).toNat = 0) (hf : (man32 s).toNat = 0) : class32 s = .zero := by
  simp [class32, ← BitVec.toNat_inj, hE, hf]

theorem class32_eq_subnormal {s : Single} (hE : (exp32 s).toNat = 0) (hf : (man32 s).toNat ≠ 0) :
    class32 s = .subnormal := by
  simp [class32, ← BitVec.toNat_inj, hE, hf]

theorem class32_eq_normal {s : Single} (hlo : 1 ≤ (exp32 s).toNat) (hhi : (exp32 s).toNat ≤ 254) :
    class32 s = .normal := by
  have h0 : (exp32 s).toNat ≠ 0 := by omega
  have h255 : (exp32 s).toNat ≠ 255 := by omega
  simp [class32, ← BitVec.toNat_inj, h0, h255]

theorem class32_eq_infinity {s : Single} (hE : (exp32 s).toNat = 255) (hf : (man32 s).toNat = 0) :
    class32 s = .infinity := by
  simp [class32, ← BitVec.toNat_inj, hE, hf]

theorem class32_eq_nan {s : Single} (hE : (exp32 s).toNat = 255) (hf : (man32 s).toNat ≠ 0) : class32 s = .nan := by
  simp [class32, ← BitVec.toNat_inj, hE, hf]

theorem isNaN16_eq_class (h : Half) : isNaN16 h = decide (class16 h = .nan) := by
  simp only [isNaN16, class16]
  split_ifs <;> simp_all

theorem isInf16_eq_class (h : Half) : isInf16 h = decide (class16 h = .infinity) := by
  simp only [isInf16, class16]
  split_ifs <;> simp_all

theorem isSub16_eq_class (h : Half) : isSub16 h = decide (class16 h = .subnormal) := by
  simp only [isSub16, class16]
  split_ifs <;> simp_all

/-- The magnitude is zero exactly when both fields below the sign are. -/
theorem mag16_eq_zero_iff (h : Half) : mag16 h = 0 ↔ exp16 h = 0 ∧ man16 h = 0 := by
  simp only [← BitVec.toNat_inj, exp16_toNat_eq_mag, man16_toNat_eq_mag, BitVec.ofNat_eq_ofNat, BitVec.toNat_ofNat]
  omega

theorem isZero16_eq_class (h : Half) : isZero16 h = decide (class16 h = .zero) := by
  simp only [isZero16, mag16_eq_zero_iff, class16]
  split_ifs <;> simp_all

theorem isNaN32_eq_class (s : Single) : isNaN32 s = decide (class32 s = .nan) := by
  simp only [isNaN32, class32]
  split_ifs <;> simp_all

theorem isInf32_eq_class (s : Single) : isInf32 s = decide (class32 s = .infinity) := by
  simp only [isInf32, class32]
  split_ifs <;> simp_all

theorem val16_of_zero {h : Half} (hc : class16 h = .zero) : val16 h = .num 0 := by
  simp [val16, hc]

theorem val16_of_subnormal {h : Half} (hc : class16 h = .subnormal) :
    val16 h = .num (signFactor (sign16 h) * (man16 h).toNat * 2 ^ (-24 : ℤ)) := by
  simp only [val16, hc]

theorem val16_of_normal {h : Half} (hc : class16 h = .normal) :
    val16 h = .num (signFactor (sign16 h) * 2 ^ (((exp16 h).toNat : ℤ) - 15) * (1 + (man16 h).toNat / 1024)) := by
  simp only [val16, hc]

theorem val16_of_infinity {h : Half} (hc : class16 h = .infinity) : val16 h = .inf (decide (sign16 h = 1)) := by
  simp only [val16, hc]

theorem val16_of_nan {h : Half} (hc : class16 h = .nan) : val16 h = .nan := by
  simp only [val16, hc]

theorem val32_of_zero {s : Single} (hc : class32 s = .zero) : val32 s = .num 0 := by
  simp [val32, hc]

theorem val32_of_subnormal {s : Single} (hc : class32 s = .subnormal) :
    val32 s = .num (signFactor (sign32 s) * (man32 s).toNat * 2 ^ (-149 : ℤ)) := by
  simp only [val32, hc]

theorem val32_of_normal {s : Single} (hc : class32 s = .normal) :
    val32 s = .num (signFactor (sign32 s) * 2 ^ (((exp32 s).toNat : ℤ) - 127) * (1 + (man32 s).toNat / 2 ^ 23)) := by
  simp only [val32, hc]

theorem val32_of_infinity {s : Single} (hc : class32 s = .infinity) : val32 s = .inf (decide (sign32 s = 1)) := by
  simp only [val32, hc]

theorem val32_of_nan {s : Single} (hc : class32 s = .nan) : val32 s = .nan := by
  simp only [val32, hc]

/-- Settles O1: in each of the five cases the fields give the class, and the class gives the value and the predicates. -/
theorem everyHalfIsOneOfFiveClassesWithItsValue : Obligations.EveryHalfIsOneOfFiveClassesWithItsValue := by
  intro h
  simp only [isZero16_eq_class, isSub16_eq_class, isInf16_eq_class, isNaN16_eq_class]
  refine ⟨fun ⟨hE, hm⟩ => ?zero, fun ⟨hE, hm⟩ => ?subnormal, fun ⟨hlo, hhi⟩ => ?normal, fun ⟨hE, hm⟩ => ?infinity,
    fun ⟨hE, hm⟩ => ?nan⟩
  case zero =>
    have hc := class16_eq_zero hE hm
    exact ⟨val16_of_zero hc, by simp [hc]⟩
  case subnormal =>
    have hc := class16_eq_subnormal hE hm
    exact ⟨val16_of_subnormal hc, by simp [hc]⟩
  case normal =>
    have hc := class16_eq_normal hlo hhi
    exact ⟨val16_of_normal hc, by simp [hc]⟩
  case infinity =>
    have hc := class16_eq_infinity hE hm
    exact ⟨val16_of_infinity hc, by simp [hc]⟩
  case nan =>
    have hc := class16_eq_nan hE hm
    exact ⟨val16_of_nan hc, by simp [hc]⟩

/-- Settles O2: in each of the five cases the fields give the class, and the class gives the value and the predicates. -/
theorem everySingleIsOneOfFiveClassesWithItsValue : Obligations.EverySingleIsOneOfFiveClassesWithItsValue := by
  intro s
  simp only [isInf32_eq_class, isNaN32_eq_class]
  refine ⟨fun ⟨hE, hf⟩ => ?zero, fun ⟨hE, hf⟩ => ?subnormal, fun ⟨hlo, hhi⟩ => ?normal, fun ⟨hE, hf⟩ => ?infinity,
    fun ⟨hE, hf⟩ => ?nan⟩
  case zero =>
    have hc := class32_eq_zero hE hf
    exact ⟨val32_of_zero hc, hc⟩
  case subnormal =>
    have hc := class32_eq_subnormal hE hf
    exact ⟨val32_of_subnormal hc, hc⟩
  case normal =>
    have hc := class32_eq_normal hlo hhi
    exact ⟨val32_of_normal hc, hc⟩
  case infinity =>
    have hc := class32_eq_infinity hE hf
    exact ⟨val32_of_infinity hc, hc, by simp [hc]⟩
  case nan =>
    have hc := class32_eq_nan hE hf
    exact ⟨val32_of_nan hc, hc, by simp [hc]⟩

end Sys2Proof.Machine
end

section
/-! Commands accepted and delivered in a row: the commands in flight as a queue (20_memory R48). -/

namespace Sys2Proof.Machine

/-- A legal command has a value of `F`, and from every state its result writes that value on `y`. -/
theorem runCommand_of_wf {c : Command} (h : c.wf = true) :
    ∃ v, unitFunction c.toWord = some v ∧ ∀ s, runCommand c s = .next (s.writeY v) := by
  obtain ⟨i, hd⟩ := decode_of_wf h
  exact ⟨resultOf i, unitFunction_of_decode_ok hd, runCommand_ok hd⟩

/-- Commands accepted one after the other queue up behind those in flight, in the order of acceptance. -/
theorem runAgenda_map_issue (s : State) (cs : List Command) :
    runAgenda s (cs.map Event.issue) = .next { s with inFlight := s.inFlight ++ cs, agenda := [] } := by
  induction cs generalizing s with
  | nil => simp
  | cons c cs ih =>
    rw [List.map_cons, runAgenda_cons_next rfl, ih]
    simp

/-- When the result of the oldest command in flight is due and is then read, the value read is `F` of that command. -/
theorem runAgenda_deliver_readY {s : State} {c : Command} {cs : List Command} {v : BitVec 32}
    (hf : s.inFlight = c :: cs) (hrun : ∀ t, runCommand c t = .next (t.writeY v)) :
    runAgenda s [.deliver, .readY] =
      .next { s with y := some v, inFlight := cs, agenda := [], reads := s.reads ++ [v] } := by
  have hdeliver : handle .deliver { s with agenda := [.readY] } =
      .next (State.writeY { s with inFlight := cs, agenda := [.readY] } v) :=
    (handle_due (.inl rfl) (s := { s with agenda := [.readY] }) hf).trans (hrun _)
  rw [runAgenda_cons_next hdeliver]
  rfl

/-- When the results of all commands in flight come and each is read, the values read are `F` of the commands, oldest first, and
`y` keeps the last of them. -/
theorem runAgenda_deliver_all (s : State) (hw : s.inFlight.all Command.wf) :
    ∃ vs : List (BitVec 32), vs.map some = s.inFlight.map (fun c => unitFunction c.toWord) ∧
      runAgenda s (s.inFlight.flatMap fun _ => [Event.deliver, .readY]) =
        .next { s with y := vs.getLast?.or s.y, inFlight := [], agenda := [], reads := s.reads ++ vs } := by
  generalize hf : s.inFlight = fl at hw ⊢
  induction fl generalizing s with
  | nil => exact ⟨[], rfl, by simp [hf]⟩
  | cons c cs ih =>
    obtain ⟨hc, hcs⟩ : c.wf = true ∧ cs.all Command.wf := by simpa using hw
    obtain ⟨v, hv, hrun⟩ := runCommand_of_wf hc
    obtain ⟨vs, hvs, hrest⟩ :=
      ih { s with y := some v, inFlight := cs, agenda := [], reads := s.reads ++ [v] } rfl hcs
    refine ⟨v :: vs, by simp [hv, hvs], ?_⟩
    rw [List.flatMap_cons, runAgenda_append_next (runAgenda_deliver_readY hf hrun), hrest]
    simp [List.getLast?_cons]

/-- Settles O24: the accepted commands queue up behind those in flight, and the whole queue is then delivered and read from its
oldest end. -/
theorem resultsLeaveInTheOrderOfAcceptance : Obligations.ResultsLeaveInTheOrderOfAcceptance := by
  intro s cs hflight hcs
  have hw : (s.inFlight ++ cs).all Command.wf := by simpa using And.intro hflight hcs
  obtain ⟨vs, hvs, hrun⟩ := runAgenda_deliver_all { s with inFlight := s.inFlight ++ cs, agenda := [] } hw
  exact ⟨vs, hvs, (runAgenda_append_next (runAgenda_map_issue s cs) _).trans hrun⟩

end Sys2Proof.Machine
end

section
/-! The decoder row by row (30_encoding R62, R63), on a command and on its bare word. -/

namespace Sys2Proof

open Sys2Proof.Machine

theorem decode_eq_h2s {c : Command} (h : c.op.toNat = 0) : decode c = .ok (.h2s (halfInA c)) := by
  simp only [decode, h]

theorem decode_eq_s2h {c : Command} (h : c.op.toNat = 1) : decode c = .ok (.s2h (singleInA c)) := by
  simp only [decode, h]

theorem decode_eq_cmp {c : Command} (h : c.op.toNat = 2) : decode c = .ok (.cmp (halfInA c) (halfInB c)) := by
  simp only [decode, h]

theorem decode_eq_feq {c : Command} (h : c.op.toNat = 3) : decode c = .ok (.feq (halfInA c) (halfInB c)) := by
  simp only [decode, h]

theorem decode_eq_fne {c : Command} (h : c.op.toNat = 4) : decode c = .ok (.fne (halfInA c) (halfInB c)) := by
  simp only [decode, h]

theorem decode_eq_flt {c : Command} (h : c.op.toNat = 5) : decode c = .ok (.flt (halfInA c) (halfInB c)) := by
  simp only [decode, h]

theorem decode_eq_fgt {c : Command} (h : c.op.toNat = 6) : decode c = .ok (.fgt (halfInA c) (halfInB c)) := by
  simp only [decode, h]

theorem decode_eq_fle {c : Command} (h : c.op.toNat = 7) : decode c = .ok (.fle (halfInA c) (halfInB c)) := by
  simp only [decode, h]

theorem decode_eq_fge {c : Command} (h : c.op.toNat = 8) : decode c = .ok (.fge (halfInA c) (halfInB c)) := by
  simp only [decode, h]

theorem Command.wf_iff (c : Command) : c.wf = true ↔ c.op.toNat ≤ 8 := decide_eq_true_iff

theorem Command.wf_eq_false_iff (c : Command) : c.wf = false ↔ 9 ≤ c.op.toNat := by
  rw [← Bool.not_eq_true, c.wf_iff]
  omega

theorem decode_reserved {c : Command} (h : 9 ≤ c.op.toNat) : decode c = .error (.reservedOp c.op) :=
  decode_of_not_wf (c.wf_eq_false_iff.mpr h)

@[simp] theorem decodeWord_toWord (c : Command) : decodeWord c.toWord = decode c := by
  rw [decodeWord, c.ofWord_toWord]

/-- `cmd[31:16]` is the Half on port `a` (30_encoding R60, R63). -/
theorem Command.toWord_halfInA (c : Command) : c.toWord.extractLsb' 16 16 = halfInA c := by
  apply BitVec.eq_of_toNat_eq
  simp only [halfInA, BitVec.extractLsb'_toNat, Nat.shiftRight_eq_div_pow, c.toWord_toNat]
  have := c.b.isLt
  omega

/-- The three slices of R60 put side by side again are the whole word. -/
@[simp] theorem Command.toWord_ofWord (w : BitVec 52) : (Command.ofWord w).toWord = w := by
  apply BitVec.eq_of_toNat_eq
  rw [Command.toWord_toNat]
  simp only [Command.ofWord, BitVec.extractLsb'_toNat, Nat.shiftRight_eq_div_pow]
  have := w.isLt
  omega

/-- Settles O5: every word is the word of a command, whose slices are the ports the decoder reads. -/
theorem opFieldSelectsTheOperationAndItsOperands : Obligations.OpFieldSelectsTheOperationAndItsOperands := by
  intro w
  obtain ⟨c, rfl⟩ : ∃ c : Command, c.toWord = w := ⟨_, Command.toWord_ofWord w⟩
  simp only [c.toWord_op, c.toWord_halfInA, c.toWord_a, c.toWord_b, decodeWord_toWord]
  exact ⟨decode_eq_h2s, decode_eq_s2h, decode_eq_cmp, decode_eq_feq, decode_eq_fne, decode_eq_flt, decode_eq_fgt,
    decode_eq_fle, decode_eq_fge, decode_reserved⟩

/-- Settles O4: the word's three slices are the ports, and word and ports determine each other. -/
theorem commandWordIsThePortsSideBySide : Obligations.CommandWordIsThePortsSideBySide :=
  ⟨fun c => ⟨c.toWord_op, c.toWord_a, c.toWord_b⟩, Command.ofWord_toWord, Command.toWord_ofWord⟩

end Sys2Proof
end

section
/-! What presenting a command does: it depends on the read fields of the command only, and completes for op 0 to 8
(30_encoding R61, R64, R66, R67). -/

namespace Sys2Proof.Machine

/-- A command that decodes completes on the state it is presented to, and only `y` changes. -/
theorem step_presentNow_of_decode_ok {c : Command} {i : Instr} (h : decode c = .ok i) (s : State) :
    step (s.presentNow c) = .next { s with y := some (resultOf i) } := runCommand_ok h s

/-- A reserved command is refused on every state (30_encoding R66). -/
theorem step_presentNow_reserved {c : Command} (h : 9 ≤ c.op.toNat) (s : State) :
    step (s.presentNow c) = .refused (.reservedOp c.op) := runCommand_reserved (decode_reserved h) s

/-- `F` has no value for a reserved command (30_encoding R66). -/
theorem unitFunction_reserved {c : Command} (h : 9 ≤ c.op.toNat) : unitFunction c.toWord = none := by
  have hne : ∀ k : BitVec 4, k.toNat ≤ 8 → c.op ≠ k := by
    rintro k hk rfl
    omega
  simp [unitFunction, c.toWord_op, hne]

/-- `F` has no value exactly for the reserved commands (30_encoding R66, R67). -/
theorem unitFunction_eq_none_iff (c : Command) : unitFunction c.toWord = none ↔ 9 ≤ c.op.toNat := by
  refine ⟨fun hnone => ?_, unitFunction_reserved⟩
  by_contra hlegal
  obtain ⟨v, hv, -⟩ := runCommand_of_wf (c.wf_iff.mpr (by omega))
  simp [hnone] at hv

/-- A command for which `F` has a value completes with that value. -/
theorem step_presentNow_of_unitFunction {c : Command} {v : BitVec 32} (h : unitFunction c.toWord = some v) (s : State) :
    step (s.presentNow c) = .next { s with y := some v } := by
  have hlegal : ¬ 9 ≤ c.op.toNat := fun h9 => by simp [unitFunction_reserved h9] at h
  obtain ⟨u, hu, hrun⟩ := runCommand_of_wf (c.wf_iff.mpr (by omega))
  obtain rfl : u = v := Option.some.inj (hu.symm.trans h)
  exact hrun s

/-- Settles O16: `F` has a value exactly for a legal command, which completes with it. -/
theorem resultIsTheFunctionOfTheCommandWord : Obligations.ResultIsTheFunctionOfTheCommandWord := fun c s =>
  ⟨fun _ hv => step_presentNow_of_unitFunction hv s,
    fun hnone => step_presentNow_reserved ((unitFunction_eq_none_iff c).mp hnone) s,
    unitFunction_eq_none_iff c⟩

/-- Settles O10: a legal command decodes and so completes, a reserved one does not. -/
theorem legalCommandsCompleteAndReservedOnesDoNot : Obligations.LegalCommandsCompleteAndReservedOnesDoNot := by
  intro c s
  refine ⟨fun hlegal => ?_, fun hreserved => step_presentNow_reserved hreserved s⟩
  obtain ⟨i, hd⟩ := decode_of_wf (c.wf_iff.mpr hlegal)
  exact ⟨resultOf i, step_presentNow_of_decode_ok hd s⟩

/-- The two commands agree on the fields the operation of `c` reads (30_encoding R64). -/
def SameReadFields (c c' : Command) : Prop :=
  (c.op = 0 ∧ c'.a.extractLsb' 0 16 = c.a.extractLsb' 0 16) ∨
  (c.op = 1 ∧ c'.a = c.a) ∨
  (2 ≤ c.op.toNat ∧ c.op.toNat ≤ 8 ∧ c'.a.extractLsb' 0 16 = c.a.extractLsb' 0 16 ∧ c'.b = c.b)

theorem SameReadFields.op_le {c c' : Command} (h : SameReadFields c c') : c.op.toNat ≤ 8 := by
  rcases h with ⟨h0, -⟩ | ⟨h1, -⟩ | ⟨-, hle, -⟩
  · simp [h0]
  · simp [h1]
  · exact hle

/-- A comparator command decodes from `op`, `a[15:0]` and `b` alone. -/
theorem decode_comparator_congr {c c' : Command} (hop : c'.op = c.op) (hlo : 2 ≤ c.op.toNat) (ha : halfInA c' = halfInA c)
    (hb : halfInB c' = halfInB c) : decode c' = decode c := by
  simp only [decode, hop, ha, hb]
  split
  case h_2 h1 => omega
  all_goals rfl

/-- Commands of one op that agree on the fields it reads decode to the same instruction. -/
theorem decode_congr {c c' : Command} (hop : c'.op = c.op) (h : SameReadFields c c') : decode c' = decode c := by
  rcases h with ⟨h0, ha⟩ | ⟨h1, ha⟩ | ⟨hlo, -, ha, hb⟩
  · have hread : halfInA c' = halfInA c := ha
    rw [decode_eq_h2s (by simp [hop, h0]), decode_eq_h2s (by simp [h0]), hread]
  · have hread : singleInA c' = singleInA c := ha
    rw [decode_eq_s2h (by simp [hop, h1]), decode_eq_s2h (by simp [h1]), hread]
  · exact decode_comparator_congr hop hlo ha hb

/-- Settles O9: the two commands decode to the same instruction, which completes. -/
theorem unreadBitsHaveNoEffect : Obligations.UnreadBitsHaveNoEffect := by
  intro c c' s hop (hread : SameReadFields c c')
  obtain ⟨i, hd⟩ := decode_of_wf (c.wf_iff.mpr hread.op_le)
  exact ⟨resultOf i, step_presentNow_of_decode_ok hd s, step_presentNow_of_decode_ok ((decode_congr hop hread).trans hd) s⟩

end Sys2Proof.Machine
end

section
/-! What the assembler makes of a line's operands and of the source's spellings (30_encoding R69 to R71). -/

namespace Sys2Proof.Machine

/-- Every instruction encodes legally, with its own op and nothing above a Half on `a`. -/
theorem encodesLegally : ∀ i : Instr, Laws.EncodesLegally.Statement i
  | .h2s h => Laws.EncodesLegally.h2s h
  | .s2h x => Laws.EncodesLegally.s2h x
  | .cmp ha hb => Laws.EncodesLegally.cmp ha hb
  | .feq ha hb => Laws.EncodesLegally.feq ha hb
  | .fne ha hb => Laws.EncodesLegally.fne ha hb
  | .flt ha hb => Laws.EncodesLegally.flt ha hb
  | .fgt ha hb => Laws.EncodesLegally.fgt ha hb
  | .fle ha hb => Laws.EncodesLegally.fle ha hb
  | .fge ha hb => Laws.EncodesLegally.fge ha hb

/-- The codec's two operations read nothing of `b`, which they encode as zero (30_encoding R71). -/
theorem encode_b_eq_zero {i : Instr} (h : i.op.toNat ≤ 1) : (encode i).b = 0 := by
  cases i with
  | h2s h => rfl
  | s2h x => rfl
  | _ => simp [Instr.op] at h

/-- A computation that may fail and answers had an answer at its first part. -/
theorem exists_of_bind_eq_ok {ε α β : Type} {x : Except ε α} {f : α → Except ε β} {b : β} (h : x >>= f = .ok b) :
    ∃ a, x = .ok a ∧ f a = .ok b := by
  cases x with
  | error e => cases h
  | ok a => exact ⟨a, rfl, h⟩

/-- The instruction the assembler finds for an op has that op. -/
theorem instrOf_op {names : AsmNames} {op : BitVec 4} {args : List AsmOperand} {i : Instr}
    (h : instrOf names op args = .ok i) : i.op = op := by
  have hop : BitVec.ofNat 4 op.toNat = op := by simp
  simp only [instrOf] at h
  split at h
  case h_1 hn | h_2 hn =>
    obtain ⟨x, -, h⟩ := exists_of_bind_eq_ok h
    cases h
    rw [← hop, hn]
    rfl
  case h_10 => cases h
  all_goals
    rename_i hn
    obtain ⟨x, -, h⟩ := exists_of_bind_eq_ok h
    obtain ⟨y, -, h⟩ := exists_of_bind_eq_ok h
    cases h
    rw [← hop, hn]
    rfl

/-- What the assembler answers is the command of an instruction with the line's op. -/
theorem assembleLine_ok {names : AsmNames} {l : AsmLine} {c : Command} (h : assembleLine names l = .ok c) :
    ∃ i : Instr, i.op = l.op ∧ c = encode i := by
  obtain ⟨i, hi, hc⟩ := exists_of_bind_eq_ok h
  cases hc
  exact ⟨i, instrOf_op hi, rfl⟩

/-- Settles O12: an assembled command is an instruction's encoding; the spec's example is run through the parser. -/
theorem assembledCommandHasUnreadFieldsZero : Obligations.AssembledCommandHasUnreadFieldsZero := by
  refine ⟨fun names l c h => ?_, ⟨none, 5, [.lit 0x3C00, .lit 0x4000]⟩, rfl, _, rfl, rfl, by decide⟩
  obtain ⟨i, hop, rfl⟩ := assembleLine_ok h
  obtain ⟨-, hwf, henc, hhigh⟩ := encodesLegally i
  rw [← hop]
  exact ⟨henc, (Command.wf_iff _).mp hwf, hhigh, encode_b_eq_zero⟩

/-- A function's call is the mnemonic's line with the same operand when the two names have one op. -/
theorem parseBody_call_one {f m : List Char} (h : functionOp f = mnemonicOp m) (x : List Char) :
    parseBody [.word f, .lparen, .word x, .rparen] = parseBody [.word m, .word x] := by
  simp only [parseBody, h]

/-- A function's call is the mnemonic's line with the same two operands when the two names have one op. -/
theorem parseBody_call_two {f m : List Char} (h : functionOp f = mnemonicOp m) (x y : List Char) :
    parseBody [.word f, .lparen, .word x, .comma, .word y, .rparen] = parseBody [.word m, .word x, .comma, .word y] := by
  simp only [parseBody, h]

/-- A relational operator between two operands is the line of the mnemonic with its op. -/
theorem parseBody_rel {op : BitVec 4} {m : List Char} (h : mnemonicOp m = some op) (x y : List Char) :
    parseBody [.word x, .rel op, .word y] = parseBody [.word m, .word x, .comma, .word y] := by
  simp only [parseBody, h, knownOp]
  rfl

/-- Settles O13: each source spelling has the op of its mnemonic, and the parser reads both forms alike. -/
theorem sourceSpellingsAreTheSameCommands : Obligations.SourceSpellingsAreTheSameCommands := fun x y =>
  ⟨parseBody_call_one rfl x, parseBody_call_one rfl x, parseBody_call_two rfl x y, parseBody_call_two rfl x y,
    parseBody_rel rfl x y, parseBody_rel rfl x y, parseBody_rel rfl x y, parseBody_rel rfl x y, parseBody_rel rfl x y,
    parseBody_rel rfl x y, rfl, rfl, rfl, rfl, rfl, rfl⟩

end Sys2Proof.Machine
end

section
/-! The magnitudes of the Half format as integers, and rounding to them: the idea behind S2H. A magnitude `m` (the 15 bits below
the sign, 41_comparator R121) stands for `halfUnits m` units of 2^-24, and for `halfUnits m * 2 ^ 125` units of 2^-149, the
unit of a Single; `0x7C00`, infinity, stands for 2^16 in this scale, the next value the format would have. -/

namespace Sys2Proof.Machine

/-- What a Half magnitude stands for, in units of 2^-24. -/
def halfUnits (m : Nat) : Nat := if m / 1024 = 0 then m % 1024 else (1024 + m % 1024) * 2 ^ (m / 1024 - 1)

theorem units16_eq_halfUnits (h : Half) : units16 h = halfUnits (mag16 h).toNat := by
  simp only [units16, halfUnits, exp16_toNat_eq_mag, man16_toNat_eq_mag]

/-- Up to the next exponent, magnitudes step by the unit of their exponent: no carry from the mantissa into the exponent is a
special case. -/
theorem halfUnits_add {k t : Nat} (hlo : k = 0 ∨ 1024 ≤ t) (hhi : t ≤ 2048) : halfUnits (k * 1024 + t) = t * 2 ^ k := by
  rcases Nat.lt_or_ge t 1024 with ht | ht
  · obtain rfl : k = 0 := by omega
    simp [halfUnits, ht, Nat.mod_eq_of_lt ht]
  rcases Nat.lt_or_ge t 2048 with ht' | ht'
  · have hdiv : (k * 1024 + t) / 1024 = k + 1 := by omega
    have hmod : 1024 + (k * 1024 + t) % 1024 = t := by omega
    rw [halfUnits, if_neg (by omega), hmod, hdiv, Nat.add_sub_cancel]
  · obtain rfl : t = 2048 := by omega
    have hdiv : (k * 1024 + 2048) / 1024 = k + 2 := by omega
    have hmod : (k * 1024 + 2048) % 1024 = 0 := by omega
    simp [halfUnits, hdiv, hmod, pow_succ]
    ring

theorem halfUnits_strictMono : StrictMono halfUnits := by
  refine strictMono_nat_of_lt_succ fun m => ?_
  rcases Nat.lt_or_ge m 1024 with hm | hm
  · have hlow : ∀ t ≤ 1024, halfUnits t = t := fun t ht => by
      simpa using halfUnits_add (k := 0) (t := t) (.inl rfl) (by omega)
    rw [hlow m (by omega), hlow (m + 1) (by omega)]
    exact m.lt_succ_self
  · obtain ⟨k, t, rfl, ht, ht'⟩ : ∃ k t, m = k * 1024 + t ∧ 1024 ≤ t ∧ t < 2048 :=
      ⟨m / 1024 - 1, 1024 + m % 1024, by omega, by omega, by omega⟩
    rw [halfUnits_add (.inr ht) ht'.le, Nat.add_assoc, halfUnits_add (.inr (by omega)) ht']
    exact Nat.mul_lt_mul_of_pos_right t.lt_succ_self (Nat.two_pow_pos k)

/-- A Half magnitude in units of 2^-149, the unit of a Single. -/
def fineUnits (m : Nat) : Nat := halfUnits m * 2 ^ 125

theorem fineUnits_zero : fineUnits 0 = 0 := by norm_num [fineUnits, halfUnits]

theorem fineUnits_strictMono : StrictMono fineUnits :=
  fun _ _ h => Nat.mul_lt_mul_of_pos_right (halfUnits_strictMono h) (Nat.two_pow_pos 125)

theorem fineUnits_lt_succ (m : Nat) : fineUnits m < fineUnits (m + 1) := fineUnits_strictMono m.lt_succ_self

theorem fineUnits_succ_le {m n : Nat} (h : m < n) : fineUnits (m + 1) ≤ fineUnits n := fineUnits_strictMono.monotone h

/-- `r` is the Half magnitude that `U` units of 2^-149 round to, to nearest with ties to even and infinity as the next value
above the largest finite one: `r` is above exactly the magnitudes `m` whose midpoint with the next one is below `U`, or is `U`
and `m` is odd (40_bit_codec R91). -/
def RoundsTo (U r : Nat) : Prop :=
  r ≤ 0x7C00 ∧ ∀ m < 0x7C00,
    (m < r ↔ fineUnits m + fineUnits (m + 1) < 2 * U ∨ (fineUnits m + fineUnits (m + 1) = 2 * U ∧ m % 2 = 1))

/-- From the magnitude `b` at or below `U` and the one above it, rounding is one comparison with their midpoint. -/
theorem RoundsTo.of_bracket {U b inc : Nat} (hb : b < 0x7C00) (hlo : fineUnits b ≤ U) (hhi : U < fineUnits (b + 1))
    (hone : inc ≤ 1)
    (hinc : inc = 1 ↔
      fineUnits b + fineUnits (b + 1) < 2 * U ∨ (fineUnits b + fineUnits (b + 1) = 2 * U ∧ b % 2 = 1)) :
    RoundsTo U (b + inc) := by
  refine ⟨by omega, fun m _ => ?_⟩
  have hstep := fineUnits_lt_succ m
  rcases lt_trichotomy m b with hm | rfl | hm
  · have hnext := fineUnits_succ_le hm
    omega
  · omega
  · have hnext := fineUnits_succ_le hm
    omega

/-- From the value of infinity on, everything rounds to infinity. -/
theorem RoundsTo.top {U : Nat} (h : fineUnits 0x7C00 ≤ U) : RoundsTo U 0x7C00 := by
  refine ⟨le_rfl, fun m hm => ?_⟩
  have hstep := fineUnits_lt_succ m
  have hnext := fineUnits_succ_le hm
  omega

/-- Below the first midpoint everything rounds to zero. -/
theorem RoundsTo.zero {U : Nat} (h : 2 * U < fineUnits 1) : RoundsTo U 0 := by
  refine ⟨by omega, fun m _ => ?_⟩
  have hfirst : fineUnits 1 ≤ fineUnits (m + 1) := fineUnits_succ_le (m := 0) m.succ_pos
  omega

/-- A value of the format rounds to itself alone. -/
theorem RoundsTo.eq_of_fineUnits {n r : Nat} (h : RoundsTo (fineUnits n) r) (hn : n ≤ 0x7C00) : r = n := by
  obtain ⟨hr, hiff⟩ := h
  rcases lt_trichotomy r n with hlt | heq | hgt
  · have hstep := fineUnits_lt_succ r
    have hnext := fineUnits_succ_le hlt
    have := hiff r (by omega)
    omega
  · exact heq
  · have hstep := fineUnits_lt_succ n
    have := hiff n (by omega)
    omega

theorem RoundsTo.eq_zero {r : Nat} (h : RoundsTo 0 r) : r = 0 := by
  rw [← fineUnits_zero] at h
  exact h.eq_of_fineUnits (by omega)

/-- Rounding is monotone. -/
theorem RoundsTo.mono {U U' r r' : Nat} (h : RoundsTo U r) (h' : RoundsTo U' r') (hU : U ≤ U') : r ≤ r' := by
  by_contra hlt
  have := h.1
  have hr := h.2 r' (by omega)
  have hr' := h'.2 r' (by omega)
  omega

/-- No magnitude is nearer than the one rounded to, and another one as near leaves the one rounded to even. -/
theorem RoundsTo.nearest {U r : Nat} (h : RoundsTo U r) (hr : r < 0x7C00) (m : Nat) :
    ((fineUnits r : ℤ) - U).natAbs ≤ ((fineUnits m : ℤ) - U).natAbs ∧
    (((fineUnits r : ℤ) - U).natAbs = ((fineUnits m : ℤ) - U).natAbs → m ≠ r → r % 2 = 0) := by
  obtain ⟨-, hiff⟩ := h
  rcases lt_trichotomy m r with hlt | rfl | hgt
  · obtain ⟨b, rfl⟩ : ∃ b, r = b + 1 := ⟨r - 1, by omega⟩
    have hbelow : fineUnits m ≤ fineUnits b := fineUnits_strictMono.monotone (by omega)
    have hstep := fineUnits_lt_succ b
    have := hiff b (by omega)
    omega
  · exact ⟨le_rfl, fun _ hne => absurd rfl hne⟩
  · have habove := fineUnits_succ_le hgt
    have hstep := fineUnits_lt_succ r
    have := hiff r hr
    omega

end Sys2Proof.Machine
end

section
/-! The cases of S2H (40_bit_codec R90) by the exponent field, and the rounded magnitude in one form for the normal and the
subnormal path. -/

namespace Sys2Proof.Machine

theorem isNaN32_iff (x : Single) : isNaN32 x = true ↔ (exp32 x).toNat = 255 ∧ (man32 x).toNat ≠ 0 := by
  simp [isNaN32, ← BitVec.toNat_inj]

theorem isInf32_iff (x : Single) : isInf32 x = true ↔ (exp32 x).toNat = 255 ∧ (man32 x).toNat = 0 := by
  simp [isInf32, ← BitVec.toNat_inj]

theorem isNaN16_iff (h : Half) : isNaN16 h = true ↔ (exp16 h).toNat = 31 ∧ (man16 h).toNat ≠ 0 := by
  simp [isNaN16, ← BitVec.toNat_inj]

/-- A Half is a NaN exactly when its magnitude is above that of infinity. -/
theorem isNaN16_iff_mag (h : Half) : isNaN16 h = true ↔ 0x7C00 < (mag16 h).toNat := by
  rw [isNaN16_iff, exp16_toNat_eq_mag, man16_toNat_eq_mag]
  have := (mag16 h).isLt
  omega

theorem isInf16_iff_mag (h : Half) : isInf16 h = true ↔ (mag16 h).toNat = 0x7C00 := by
  simp only [isInf16, ← BitVec.toNat_inj, exp16_toNat_eq_mag, man16_toNat_eq_mag, Bool.and_eq_true, decide_eq_true_eq,
    BitVec.ofNat_eq_ofNat, BitVec.toNat_ofNat]
  have := (mag16 h).isLt
  omega

theorem mag16_packHalf_toNat (sg : BitVec 1) (E : BitVec 5) (m : BitVec 10) :
    (mag16 (packHalf sg E m)).toNat = E.toNat * 1024 + m.toNat := by
  rw [mag16_toNat, packHalf_toNat]
  have := E.isLt
  have := m.isLt
  omega

theorem narrow_of_nan {x : Single} (h : isNaN32 x = true) : narrow x = narrowNaN x := if_pos ((isNaN32_iff x).mp h)

theorem narrow_of_inf {x : Single} (h : isInf32 x = true) : narrow x = infinity16 (sign32 x) := by
  obtain ⟨hE, hf⟩ := (isInf32_iff x).mp h
  simp [narrow, hE, hf]

theorem narrow_of_exp_zero {x : Single} (h : (exp32 x).toNat = 0) : narrow x = zero16 (sign32 x) := by
  simp [narrow, h]

theorem narrow_of_overflow {x : Single} (hlo : 143 ≤ (exp32 x).toNat) (hhi : (exp32 x).toNat ≤ 254) :
    narrow x = infinity16 (sign32 x) := by
  simp only [narrow]
  rw [if_neg (by omega), if_neg (by omega), if_neg (by omega), if_pos (by omega)]

theorem narrow_of_underflow {x : Single} (h : (exp32 x).toNat ≤ 101) : narrow x = zero16 (sign32 x) := by
  by_cases h0 : (exp32 x).toNat = 0
  · exact narrow_of_exp_zero h0
  · simp only [narrow]
    rw [if_neg (by omega), if_neg (by omega), if_neg h0, if_neg (by omega), if_pos (by omega)]

theorem narrow_of_rounded {x : Single} (hlo : 102 ≤ (exp32 x).toNat) (hhi : (exp32 x).toNat ≤ 142) :
    narrow x = packMagnitude (sign32 x) (BitVec.ofNat 15 (narrowRounded x (((exp32 x).toNat : Int) - 127))) := by
  simp only [narrow]
  rw [if_neg (by omega), if_neg (by omega), if_neg (by omega), if_neg (by omega), if_neg (by omega)]

/-- Narrowing keeps the sign (40_bit_codec R92). -/
@[simp] theorem sign16_narrow (x : Single) : sign16 (narrow x) = sign32 x := by
  simp only [narrow]
  split_ifs <;> simp [narrowNaN, infinity16, zero16]

theorem mag16_infinity16 (sg : BitVec 1) : (mag16 (infinity16 sg)).toNat = 0x7C00 := mag16_packHalf_toNat sg _ _

theorem mag16_zero16 (sg : BitVec 1) : (mag16 (zero16 sg)).toNat = 0 := by simp [zero16]

theorem significand_lt (x : Single) : significand x < 2 ^ 24 := by
  have := (man32 x).isLt
  simp only [significand]
  omega

theorem narrowShift_normal {E : Nat} (h : 113 ≤ E) : narrowShift ((E : Int) - 127) = 13 := if_pos (by omega)

theorem narrowShift_subnormal {E : Nat} (h : E ≤ 112) : narrowShift ((E : Int) - 127) = 126 - E := by
  rw [narrowShift, if_neg (by omega)]
  omega

/-- The truncated result in one form for both paths: the kept bits of the significand above a multiple of 1024, which is 0 on the
subnormal path (40_bit_codec R94, R95). -/
theorem narrowBase_eq (x : Single) (E : Nat) :
    narrowBase x ((E : Int) - 127) = (E - 113) * 1024 + significand x / 2 ^ narrowShift ((E : Int) - 127) := by
  by_cases hn : 113 ≤ E
  · have hexp : ((E : Int) - 127 + 15).toNat = E - 112 := by omega
    rw [narrowShift_normal hn, narrowBase, if_pos (by omega), hexp, significand, Nat.shiftRight_eq_div_pow]
    omega
  · rw [narrowBase, if_neg (by omega), Nat.shiftRight_eq_div_pow, show E - 113 = 0 by omega, Nat.zero_mul, Nat.zero_add]

/-- On the normal path 11 bits of the significand are kept, on the subnormal path fewer. -/
theorem keptBits_bounds (x : Single) {E : Nat} (hlo : 102 ≤ E) :
    (113 ≤ E → 1024 ≤ significand x / 2 ^ narrowShift ((E : Int) - 127)) ∧
    (E ≤ 112 → significand x / 2 ^ narrowShift ((E : Int) - 127) < 1024) ∧
    significand x / 2 ^ narrowShift ((E : Int) - 127) < 2048 := by
  have hM := significand_lt x
  by_cases hn : 113 ≤ E
  · have hge : 2 ^ 23 ≤ significand x := Nat.le_add_right _ _
    rw [narrowShift_normal hn]
    omega
  · have hdiv : significand x / 2 ^ (126 - E) < 1024 := by
      rw [Nat.div_lt_iff_lt_mul (Nat.two_pow_pos _)]
      have hpow : 2 ^ 14 ≤ 2 ^ (126 - E) := Nat.pow_le_pow_right two_pos (by omega)
      omega
    rw [narrowShift_subnormal (by omega)]
    omega

/-- When the increment is 1: more than half of a unit is discarded, or exactly half of it from an odd result (40_bit_codec R85). -/
theorem rneInc_eq_one_iff (M sh lsb : Nat) :
    rneInc M sh lsb = 1 ↔ 2 ^ (sh - 1) < M % 2 ^ sh ∨ (2 ^ (sh - 1) = M % 2 ^ sh ∧ lsb = 1) := by
  simp only [rneInc]
  split_ifs with hmore htie
  · exact iff_of_true rfl (.inl hmore)
  · exact iff_of_true rfl (.inr ⟨htie.1.symm, htie.2⟩)
  · exact iff_of_false not_false (by omega)

/-- A Single that is no subnormal, in units of 2^-149. -/
theorem units32_eq {x : Single} (h : 1 ≤ (exp32 x).toNat) : units32 x = significand x * 2 ^ ((exp32 x).toNat - 1) :=
  if_neg (by omega)

/-- The kept bits `M / 2 ^ sh` of a significand, above a multiple of 1024, are the magnitude at or below its value, and the
discarded bits tell the increment on which side of the midpoint the value is. -/
theorem roundsTo_add_rneInc {M sh c k : Nat} (hscale : k + 125 = sh + c) (hsh : 1 ≤ sh) (hk : k ≤ 29)
    (hlow : k = 0 ∨ 1024 ≤ M / 2 ^ sh) (hkept : M / 2 ^ sh < 2048) :
    RoundsTo (M * 2 ^ c) (k * 1024 + M / 2 ^ sh + rneInc M sh ((k * 1024 + M / 2 ^ sh) % 2)) := by
  have hunits : ∀ t ≤ 2048, k = 0 ∨ 1024 ≤ t → fineUnits (k * 1024 + t) = t * 2 ^ sh * 2 ^ c := by
    intro t ht hlow
    have hpow : 2 ^ k * 2 ^ 125 = 2 ^ sh * 2 ^ c := by rw [← pow_add, hscale, pow_add]
    rw [fineUnits, halfUnits_add hlow ht, Nat.mul_assoc, hpow, Nat.mul_assoc]
  have hbase := hunits (M / 2 ^ sh) hkept.le hlow
  have hnext : fineUnits (k * 1024 + M / 2 ^ sh + 1) = (M / 2 ^ sh + 1) * 2 ^ sh * 2 ^ c := by
    rw [Nat.add_assoc]
    exact hunits (M / 2 ^ sh + 1) hkept (by omega)
  have hc : 0 < 2 ^ c := Nat.two_pow_pos c
  have hM : M / 2 ^ sh * 2 ^ sh + M % 2 ^ sh = M := Nat.div_add_mod' M _
  have hrem : M % 2 ^ sh < 2 ^ sh := Nat.mod_lt _ (Nat.two_pow_pos sh)
  have hhalf : 2 ^ sh = 2 * 2 ^ (sh - 1) := by rw [← pow_succ', Nat.sub_add_cancel hsh]
  have hdouble : 2 * (M * 2 ^ c) = 2 * M * 2 ^ c := by ring
  refine RoundsTo.of_bracket (by omega) ?_ ?_ (rneInc_le_one _ _ _) ?_
  · rw [hbase]
    exact Nat.mul_le_mul_right _ (Nat.div_mul_le_self M _)
  · rw [hnext, Nat.mul_lt_mul_right hc, Nat.add_one_mul]
    omega
  · rw [rneInc_eq_one_iff, hbase, hnext, hdouble, ← Nat.add_mul, Nat.mul_lt_mul_right hc, Nat.mul_left_inj hc.ne',
      Nat.add_one_mul]
    omega

/-- The magnitude S2H computes for a Single of exponent -25 to 15 is the one its value rounds to (40_bit_codec R90, R91). -/
theorem narrowRounded_roundsTo {x : Single} (hlo : 102 ≤ (exp32 x).toNat) (hhi : (exp32 x).toNat ≤ 142) :
    RoundsTo (units32 x) (narrowRounded x (((exp32 x).toNat : Int) - 127)) := by
  obtain ⟨hnormal, -, hkept⟩ := keptBits_bounds x hlo
  rw [units32_eq (by omega), narrowRounded, narrowBase_eq]
  by_cases hn : 113 ≤ (exp32 x).toNat
  · rw [narrowShift_normal hn] at *
    exact roundsTo_add_rneInc (by omega) (by omega) (by omega) (.inr (hnormal hn)) hkept
  · rw [narrowShift_subnormal (by omega)] at *
    exact roundsTo_add_rneInc (by omega) (by omega) (by omega) (.inl (by omega)) hkept

end Sys2Proof.Machine
end

section
/-! S2H rounds: the magnitude of its result is the one the Single's value rounds to, for every Single that is not a NaN. -/

namespace Sys2Proof.Machine

theorem fineUnits_one : fineUnits 1 = 2 ^ 125 := rfl
theorem fineUnits_infinity : fineUnits 0x7C00 = 2 ^ 23 * 2 ^ 142 := by norm_num [fineUnits, halfUnits]

theorem units32_lt (x : Single) : units32 x < 2 ^ 24 * 2 ^ ((exp32 x).toNat - 1) := by
  by_cases h0 : (exp32 x).toNat = 0
  · have := (man32 x).isLt
    rw [units32, if_pos h0, h0]
    omega
  · rw [units32_eq (by omega), Nat.mul_lt_mul_right (Nat.two_pow_pos _)]
    exact significand_lt x

/-- A magnitude below 2^-25 is nearer to zero than to the smallest subnormal. -/
theorem units32_lt_of_exp_le {x : Single} (h : (exp32 x).toNat ≤ 101) : 2 * units32 x < fineUnits 1 := by
  have hlt := units32_lt x
  have hpow : 2 ^ ((exp32 x).toNat - 1) ≤ 2 ^ 100 := Nat.pow_le_pow_right two_pos (by omega)
  rw [fineUnits_one]
  omega

/-- A magnitude from 2^16 on, infinity included, is at or above the value that stands for infinity. -/
theorem fineUnits_infinity_le_units32 {x : Single} (h : 143 ≤ (exp32 x).toNat) : fineUnits 0x7C00 ≤ units32 x := by
  rw [units32_eq (by omega), fineUnits_infinity]
  exact Nat.mul_le_mul (Nat.le_add_right _ _) (Nat.pow_le_pow_right two_pos (by omega))

/-- Among the Singles that are no NaN the infinities are those of exponent field 255. -/
theorem isInf32_iff_of_not_nan {x : Single} (hn : isNaN32 x = false) : isInf32 x = true ↔ (exp32 x).toNat = 255 := by
  rw [← Bool.not_eq_true, isNaN32_iff] at hn
  rw [isInf32_iff]
  omega

theorem mag16_narrow_of_underflow {x : Single} (h : (exp32 x).toNat ≤ 101) : (mag16 (narrow x)).toNat = 0 := by
  rw [narrow_of_underflow h, mag16_zero16]

theorem mag16_narrow_of_overflow {x : Single} (hn : isNaN32 x = false) (h : 143 ≤ (exp32 x).toNat) :
    (mag16 (narrow x)).toNat = 0x7C00 := by
  by_cases hi : isInf32 x = true
  · rw [narrow_of_inf hi, mag16_infinity16]
  · have hlt := (exp32 x).isLt
    rw [isInf32_iff_of_not_nan hn] at hi
    rw [narrow_of_overflow h (by omega), mag16_infinity16]

/-- The cut of the rounded result to 15 bits loses nothing (40_bit_codec R98). -/
theorem mag16_narrow_of_rounded {x : Single} (hlo : 102 ≤ (exp32 x).toNat) (hhi : (exp32 x).toNat ≤ 142) :
    (mag16 (narrow x)).toNat = narrowRounded x (((exp32 x).toNat : Int) - 127) := by
  have hle := (narrowRounded_roundsTo hlo hhi).1
  rw [narrow_of_rounded hlo hhi, mag16_packMagnitude, BitVec.toNat_ofNat, Nat.mod_eq_of_lt (by omega)]

/-- S2H rounds to nearest with ties to even, on every path: zero, infinity, and the normal and subnormal path
(40_bit_codec R90, R91). -/
theorem narrow_roundsTo {x : Single} (hn : isNaN32 x = false) : RoundsTo (units32 x) (mag16 (narrow x)).toNat := by
  rcases Nat.lt_or_ge (exp32 x).toNat 102 with hlo | hlo
  · rw [mag16_narrow_of_underflow (by omega)]
    exact RoundsTo.zero (units32_lt_of_exp_le (by omega))
  rcases Nat.lt_or_ge (exp32 x).toNat 143 with hhi | hhi
  · rw [mag16_narrow_of_rounded hlo (by omega)]
    exact narrowRounded_roundsTo hlo (by omega)
  · rw [mag16_narrow_of_overflow hn hhi]
    exact RoundsTo.top (fineUnits_infinity_le_units32 hhi)

end Sys2Proof.Machine
end

section
/-! The value of a word that is not a NaN as a sign and a multiple of its format's unit, in one form for both formats, and the
order of values in that form. -/

namespace Sys2Proof.Machine

/-- The value of sign `sg` and `u` units of `1 / d`, where `top` units stand for infinity. -/
def signedValue (top d : Nat) (sg : BitVec 1) (u : Nat) : Value :=
  if u = top then .inf (decide (sg = 1)) else .num (signFactor sg * u / d)

/-- The units of a value with their sign. -/
def signedUnits (sg : BitVec 1) (u : Nat) : ℤ := if sg = 1 then -u else u

@[simp] theorem signedUnits_zero (u : Nat) : signedUnits 0#1 u = u := rfl
@[simp] theorem signedUnits_one (u : Nat) : signedUnits 1#1 u = -u := rfl

theorem signFactor_mul (sg : BitVec 1) (u : Nat) : signFactor sg * (u : ℚ) = signedUnits sg u := by
  simp only [signFactor, signedUnits]
  split <;> simp

theorem signedUnits_natAbs (sg : BitVec 1) (u : Nat) : (signedUnits sg u).natAbs = u := by
  simp only [signedUnits]
  split <;> simp

theorem signedUnits_bounds (sg : BitVec 1) (u : Nat) : -(u : ℤ) ≤ signedUnits sg u ∧ signedUnits sg u ≤ u := by
  have := signedUnits_natAbs sg u
  omega

theorem Value.num_le_num (p q : ℚ) : (Value.num p).le (.num q) = true ↔ p ≤ q := by
  simp [Value.le, Value.lt, Value.same, le_iff_lt_or_eq]

theorem Value.num_le_inf (p : ℚ) (n : Bool) : (Value.num p).le (.inf n) = !n := by
  simp [Value.le, Value.lt, Value.same]

theorem Value.inf_le_num (n : Bool) (q : ℚ) : (Value.inf n).le (.num q) = n := by
  simp [Value.le, Value.lt, Value.same]

theorem Value.inf_le_inf (m n : Bool) : (Value.inf m).le (.inf n) = (m || !n) := by
  cases m <;> cases n <;> rfl

/-- Values are ordered as their signed units, infinity being the top of the scale. -/
theorem signedValue_le_iff {top d : Nat} (htop : 0 < top) (hd : 0 < d) {sg sg' : BitVec 1} {u u' : Nat} (hu : u ≤ top)
    (hu' : u' ≤ top) :
    (signedValue top d sg u).le (signedValue top d sg' u') = true ↔ signedUnits sg u ≤ signedUnits sg' u' := by
  have hdq : (0 : ℚ) < d := by exact_mod_cast hd
  have hbounds := signedUnits_bounds sg u
  have hbounds' := signedUnits_bounds sg' u'
  simp only [signedValue, signFactor_mul]
  rcases Nat.lt_or_eq_of_le hu with hlt | rfl <;> rcases Nat.lt_or_eq_of_le hu' with hlt' | rfl
  · rw [if_neg hlt.ne, if_neg hlt'.ne, Value.num_le_num, div_le_div_iff_of_pos_right hdq, Int.cast_le]
  · rw [if_neg hlt.ne, if_pos rfl, Value.num_le_inf]
    rcases BitVec.eq_zero_or_eq_one sg' with rfl | rfl <;> simp <;> omega
  · rw [if_pos rfl, if_neg hlt'.ne, Value.inf_le_num]
    rcases BitVec.eq_zero_or_eq_one sg with rfl | rfl <;> simp <;> omega
  · rw [if_pos rfl, if_pos rfl, Value.inf_le_inf]
    rcases BitVec.eq_zero_or_eq_one sg with rfl | rfl <;> rcases BitVec.eq_zero_or_eq_one sg' with rfl | rfl <;> simp
    omega

/-- A number among the signed values is its signed units over the denominator. -/
theorem eq_of_signedValue_eq_num {top d : Nat} {sg : BitVec 1} {u : Nat} {q : ℚ} (h : signedValue top d sg u = .num q) :
    u ≠ top ∧ q = signedUnits sg u / d := by
  rw [signedValue, signFactor_mul] at h
  split at h
  case isTrue => cases h
  case isFalse hne => exact ⟨hne, (Value.num.inj h).symm⟩

theorem mag16_le_of_not_nan {h : Half} (hn : isNaN16 h = false) : (mag16 h).toNat ≤ 0x7C00 := by
  rw [← Bool.not_eq_true, isNaN16_iff_mag] at hn
  omega

theorem val16_eq_signedValue {h : Half} (hn : isNaN16 h = false) :
    val16 h = signedValue (halfUnits 0x7C00) (2 ^ 24) (sign16 h) (units16 h) := by
  rw [units16_eq_halfUnits, signedValue]
  rcases Nat.lt_or_eq_of_le (mag16_le_of_not_nan hn) with hfin | hinf
  · have hexp : exp16 h ≠ 31 := by
      rw [Ne, ← BitVec.toNat_inj, exp16_toNat_eq_mag]
      exact (Nat.div_lt_iff_lt_mul (by decide)).mpr hfin |>.ne
    rw [if_neg (halfUnits_strictMono hfin).ne, val16_eq_units hexp, units16_eq_halfUnits]
    norm_num
  · have hclass : class16 h = .infinity := by
      simpa [isInf16_eq_class] using (isInf16_iff_mag h).mpr hinf
    rw [if_pos (by rw [hinf]), val16_of_infinity hclass]

theorem units16_le {h : Half} (hn : isNaN16 h = false) : units16 h ≤ halfUnits 0x7C00 := by
  rw [units16_eq_halfUnits]
  exact halfUnits_strictMono.monotone (mag16_le_of_not_nan hn)

theorem units32_finite_lt {x : Single} (hE : (exp32 x).toNat ≠ 255) : units32 x < 2 ^ 23 * 2 ^ 254 := by
  have hlt := units32_lt x
  have hE' := (exp32 x).isLt
  have hpow : 2 ^ ((exp32 x).toNat - 1) ≤ 2 ^ 253 := Nat.pow_le_pow_right two_pos (by omega)
  omega

theorem units32_infinity {x : Single} (hi : isInf32 x = true) : units32 x = 2 ^ 23 * 2 ^ 254 := by
  obtain ⟨hE, hf⟩ := (isInf32_iff x).mp hi
  rw [units32_eq (by omega), significand, hE, hf, Nat.add_zero]

theorem val32_eq_signedValue {x : Single} (hn : isNaN32 x = false) :
    val32 x = signedValue (2 ^ 23 * 2 ^ 254) (2 ^ 149) (sign32 x) (units32 x) := by
  rw [signedValue]
  by_cases hi : isInf32 x = true
  · have hclass : class32 x = .infinity := by simpa [isInf32_eq_class] using hi
    rw [if_pos (units32_infinity hi), val32_of_infinity hclass]
  · have hE : (exp32 x).toNat ≠ 255 := (isInf32_iff_of_not_nan hn).not.mp hi
    have hexp : exp32 x ≠ 255 := fun h => hE (by rw [h]; rfl)
    rw [if_neg (units32_finite_lt hE).ne, val32_eq_units hexp]
    norm_num

theorem units32_le {x : Single} (hn : isNaN32 x = false) : units32 x ≤ 2 ^ 23 * 2 ^ 254 := by
  by_cases hi : isInf32 x = true
  · exact (units32_infinity hi).le
  · exact (units32_finite_lt ((isInf32_iff_of_not_nan hn).not.mp hi)).le

end Sys2Proof.Machine
end

section
/-! S2H on values: correct rounding (40_bit_codec R91) and monotonicity (R97). -/

namespace Sys2Proof.Machine

theorem isNaN16_narrow {x : Single} (hn : isNaN32 x = false) : isNaN16 (narrow x) = false := by
  rw [← Bool.not_eq_true, isNaN16_iff_mag]
  exact (narrow_roundsTo hn).1.not_gt

/-- Rounding keeps the order of signed values. -/
theorem RoundsTo.signedUnits_le {U U' r r' : Nat} (h : RoundsTo U r) (h' : RoundsTo U' r') {sg sg' : BitVec 1}
    (hU : signedUnits sg U ≤ signedUnits sg' U') :
    signedUnits sg (halfUnits r) ≤ signedUnits sg' (halfUnits r') := by
  have hmono : ∀ {m n : Nat}, m ≤ n → halfUnits m ≤ halfUnits n := fun h => halfUnits_strictMono.monotone h
  rcases BitVec.eq_zero_or_eq_one sg with rfl | rfl <;> rcases BitVec.eq_zero_or_eq_one sg' with rfl | rfl <;>
    simp only [signedUnits_zero, signedUnits_one] at hU ⊢
  · exact_mod_cast hmono (h.mono h' (by omega))
  · obtain ⟨rfl, rfl⟩ : U = 0 ∧ U' = 0 := by omega
    rw [h.eq_zero, h'.eq_zero]
    decide
  · omega
  · have := hmono (h'.mono h (by omega))
    omega

/-- Settles O45: on signed units, values that are no NaN are ordered as integers, and rounding keeps their order. -/
theorem narrowingIsMonotone : Obligations.NarrowingIsMonotone := by
  intro x x' hn hn' hle
  rw [val32_eq_signedValue hn, val32_eq_signedValue hn',
    signedValue_le_iff (by decide) (by decide) (units32_le hn) (units32_le hn')] at hle
  rw [val16_eq_signedValue (isNaN16_narrow hn), val16_eq_signedValue (isNaN16_narrow hn'),
    signedValue_le_iff (by decide) (by decide) (units16_le (isNaN16_narrow hn)) (units16_le (isNaN16_narrow hn')),
    units16_eq_halfUnits, units16_eq_halfUnits, sign16_narrow, sign16_narrow]
  exact (narrow_roundsTo hn).signedUnits_le (narrow_roundsTo hn') hle

/-- A Half with a number for its value is no NaN and finite, and the number is its signed units of 2^-149. -/
theorem val16_eq_num {h : Half} {p : ℚ} (hp : val16 h = .num p) :
    p = signedUnits (sign16 h) (fineUnits (mag16 h).toNat) / 2 ^ 149 := by
  have hn : isNaN16 h = false := by
    rw [isNaN16_eq_class, decide_eq_false_iff_not]
    intro hc
    simp [val16_of_nan hc] at hp
  rw [val16_eq_signedValue hn, units16_eq_halfUnits] at hp
  rw [(eq_of_signedValue_eq_num hp).2, ← signFactor_mul, ← signFactor_mul, fineUnits]
  push_cast
  ring

theorem isNaN32_of_val32_eq_num {x : Single} {q : ℚ} (hq : val32 x = .num q) : isNaN32 x = false := by
  rw [isNaN32_eq_class, decide_eq_false_iff_not]
  intro hc
  simp [val32_of_nan hc] at hq

theorem val32_eq_num {x : Single} {q : ℚ} (hq : val32 x = .num q) : q = signedUnits (sign32 x) (units32 x) / 2 ^ 149 := by
  rw [val32_eq_signedValue (isNaN32_of_val32_eq_num hq)] at hq
  rw [(eq_of_signedValue_eq_num hq).2, Nat.cast_pow, Nat.cast_ofNat]

/-- The magnitude of a finite Single, in units. -/
theorem abs_val32 {x : Single} {q : ℚ} (hq : val32 x = .num q) : |q| = units32 x / 2 ^ 149 := by
  rw [val32_eq_num hq, abs_div, ← Int.cast_abs, Int.abs_eq_natAbs, signedUnits_natAbs]
  norm_num

/-- Numbers of units are as far apart as their integers. -/
theorem abs_sub_of_units (a b : ℤ) : |(a : ℚ) / 2 ^ 149 - b / 2 ^ 149| = ((a - b).natAbs : ℚ) / 2 ^ 149 := by
  rw [← sub_div, abs_div, Nat.cast_natAbs]
  push_cast
  norm_num

/-- The result is infinite exactly from the midpoint of 65504 and 65536 on (40_bit_codec R89). -/
theorem isInf16_narrow_iff {x : Single} (hn : isNaN32 x = false) :
    isInf16 (narrow x) = true ↔ 65520 * 2 ^ 149 ≤ units32 x := by
  obtain ⟨hle, hiff⟩ := narrow_roundsTo hn
  have hmid : fineUnits 0x7BFF + fineUnits (0x7BFF + 1) = 2 * (65520 * 2 ^ 149) := by norm_num [fineUnits, halfUnits]
  have := hiff 0x7BFF (by omega)
  rw [isInf16_iff_mag]
  omega

/-- The result is infinite exactly for a magnitude of 65520 or more (40_bit_codec R89). -/
theorem isInf16_narrow_iff_abs {x : Single} {q : ℚ} (hq : val32 x = .num q) :
    isInf16 (narrow x) = true ↔ 65520 ≤ |q| := by
  rw [isInf16_narrow_iff (isNaN32_of_val32_eq_num hq), abs_val32 hq, le_div_iff₀ (by positivity)]
  norm_cast

theorem getLsbD_zero_eq_false {h : Half} (hm : (mag16 h).toNat % 2 = 0) : h.getLsbD 0 = false := by
  rw [mag16_toNat] at hm
  simp only [BitVec.getLsbD, Nat.testBit_zero, decide_eq_false_iff_not]
  omega

theorem signedUnits_sub_same (sg : BitVec 1) (a b : Nat) :
    (signedUnits sg a - signedUnits sg b).natAbs = ((a : ℤ) - b).natAbs := by
  rcases BitVec.eq_zero_or_eq_one sg with rfl | rfl <;> simp only [signedUnits_zero, signedUnits_one]
  omega

theorem signedUnits_sub_of_ne {sg sg' : BitVec 1} (h : sg ≠ sg') (a b : Nat) :
    (signedUnits sg' a - signedUnits sg b).natAbs = a + b := by
  rcases BitVec.eq_zero_or_eq_one sg with rfl | rfl <;> rcases BitVec.eq_zero_or_eq_one sg' with rfl | rfl
  · exact absurd rfl h
  · rw [signedUnits_zero, signedUnits_one]
    omega
  · rw [signedUnits_zero, signedUnits_one]
    omega
  · exact absurd rfl h

/-- Under the sign of what is rounded, no signed magnitude is nearer than the one rounded to, and another one as near leaves the
one rounded to even: a magnitude of the other sign is no nearer than with the same sign, and as near only beside zero. -/
theorem RoundsTo.nearest_signed {U r : Nat} (h : RoundsTo U r) (hr : r < 0x7C00) (m : Nat) (sg sg' : BitVec 1) :
    (signedUnits sg (fineUnits r) - signedUnits sg U).natAbs ≤ (signedUnits sg' (fineUnits m) - signedUnits sg U).natAbs ∧
    ((signedUnits sg (fineUnits r) - signedUnits sg U).natAbs = (signedUnits sg' (fineUnits m) - signedUnits sg U).natAbs →
      signedUnits sg (fineUnits r) ≠ signedUnits sg' (fineUnits m) → r % 2 = 0) := by
  obtain ⟨hnear, htie⟩ := h.nearest hr m
  rw [signedUnits_sub_same]
  by_cases hs : sg = sg'
  · subst hs
    rw [signedUnits_sub_same]
    exact ⟨hnear, fun heq hne => htie heq fun hm => hne (by rw [hm])⟩
  · rw [signedUnits_sub_of_ne hs]
    refine ⟨by omega, fun heq _ => ?_⟩
    by_cases hm : m = r
    · have hr0 : U = 0 ∨ fineUnits r = 0 := by
        rw [hm] at heq
        omega
      rcases hr0 with rfl | hr0
      · rw [h.eq_zero]
      · rw [fineUnits_strictMono.injective (hr0.trans fineUnits_zero.symm)]
    · exact htie (by omega) hm

/-- Settles O43: the result's magnitude is the one the Single's rounds to, and the sign is kept. -/
theorem narrowingRoundsToNearestTiesToEven : Obligations.NarrowingRoundsToNearestTiesToEven := by
  intro x hn
  refine ⟨sign16_narrow x, fun hi => ?_, fun q hq h => (isInf16_narrow_iff_abs hq).mpr h, fun q hq h => ?_⟩
  · rw [isInf16_narrow_iff hn, units32_infinity hi]
    norm_num
  · have hround := narrow_roundsTo hn
    have hfin : (mag16 (narrow x)).toNat < 0x7C00 := by
      refine lt_of_le_of_ne hround.1 fun hinf => ?_
      rw [← isInf16_iff_mag, isInf16_narrow_iff_abs hq] at hinf
      exact absurd hinf h.not_ge
    obtain ⟨p, hp⟩ : ∃ p, val16 (narrow x) = .num p := by
      refine ⟨_, (val16_eq_signedValue (isNaN16_narrow hn)).trans (if_neg ?_)⟩
      rw [units16_eq_halfUnits]
      exact (halfUnits_strictMono hfin).ne
    refine ⟨p, hp, fun h p' hp' => ?_⟩
    obtain ⟨hnear, htie⟩ := hround.nearest_signed hfin (mag16 h).toNat (sign32 x) (sign16 h)
    rw [val16_eq_num hp, val16_eq_num hp', val32_eq_num hq, sign16_narrow, abs_sub_of_units, abs_sub_of_units,
      div_le_div_iff_of_pos_right (by positivity), div_left_inj' (by positivity), Nat.cast_le, Nat.cast_inj]
    refine ⟨hnear, fun heq hne => getLsbD_zero_eq_false (htie heq fun hsame => hne ?_)⟩
    rw [hsame]

end Sys2Proof.Machine
end

section
/-! The cases of H2S (40_bit_codec R82) by the fields of the Half, its exactness (R83) and the round trip with S2H (R96). -/

namespace Sys2Proof.Machine

theorem widen_of_zero {h : Half} (hE : (exp16 h).toNat = 0) (hm : (man16 h).toNat = 0) :
    widen h = packSingle (sign16 h) 0#8 0#23 := if_pos ⟨hE, hm⟩

theorem widen_of_subnormal {h : Half} (hE : (exp16 h).toNat = 0) (hm : (man16 h).toNat ≠ 0) :
    widen h = widenSubnormal h := by
  simp [widen, hE, hm]

theorem widen_of_normal {h : Half} (hlo : 1 ≤ (exp16 h).toNat) (hhi : (exp16 h).toNat ≤ 30) : widen h = widenNormal h := by
  simp only [widen]
  rw [if_neg (by omega), if_neg (by omega), if_neg (by omega), if_neg (by omega)]

theorem widen_of_inf {h : Half} (hE : (exp16 h).toNat = 31) (hm : (man16 h).toNat = 0) :
    widen h = packSingle (sign16 h) 0xFF#8 0#23 := by
  simp [widen, hE, hm]

theorem widen_of_nan {h : Half} (hn : isNaN16 h = true) : widen h = widenNaN h := by
  obtain ⟨hE, hm⟩ := (isNaN16_iff h).mp hn
  simp [widen, hE, hm]

/-- Widening keeps the sign, of zeros and NaNs too (40_bit_codec R83, R84). -/
@[simp] theorem sign32_widen (h : Half) : sign32 (widen h) = sign16 h := by
  simp only [widen]
  split_ifs <;> simp [widenSubnormal, widenNaN, widenNormal]

/-- The shift of R80 brings the highest set bit of a subnormal mantissa to bit 10, and is the least that does. -/
theorem normShift_spec {m : Nat} (h0 : m ≠ 0) (hlt : m < 1024) :
    1 ≤ normShift m ∧ normShift m ≤ 10 ∧ 1024 ≤ m * 2 ^ normShift m ∧ m * 2 ^ normShift m < 2048 := by
  have hlog : Nat.log2 m < 10 := (Nat.log2_lt h0).mpr hlt
  have hlo : 2 ^ Nat.log2 m ≤ m := Nat.log2_self_le h0
  have hhi : m < 2 ^ (Nat.log2 m + 1) := Nat.lt_log2_self
  have hpow : 2 ^ Nat.log2 m * 2 ^ (10 - Nat.log2 m) = 1024 := by
    rw [← pow_add, Nat.add_sub_cancel' hlog.le]
    rfl
  have hpos : 0 < 2 ^ (10 - Nat.log2 m) := Nat.two_pow_pos _
  rw [pow_succ] at hhi
  simp only [normShift, msb]
  refine ⟨by omega, by omega, ?_, ?_⟩
  · exact hpow ▸ Nat.mul_le_mul_right _ hlo
  · have := Nat.mul_lt_mul_of_pos_right hhi hpos
    nlinarith

theorem exp32_widen_of_zero {h : Half} (hE : (exp16 h).toNat = 0) (hm : (man16 h).toNat = 0) :
    (exp32 (widen h)).toNat = 0 := by
  rw [widen_of_zero hE hm, exp32_packSingle]
  rfl

theorem man32_widen_of_zero {h : Half} (hE : (exp16 h).toNat = 0) (hm : (man16 h).toNat = 0) :
    (man32 (widen h)).toNat = 0 := by
  rw [widen_of_zero hE hm, man32_packSingle]
  rfl

theorem exp32_widen_of_subnormal {h : Half} (hE : (exp16 h).toNat = 0) (hm : (man16 h).toNat ≠ 0) :
    (exp32 (widen h)).toNat = 113 - normShift (man16 h).toNat := by
  rw [widen_of_subnormal hE hm, widenSubnormal, exp32_packSingle, BitVec.toNat_ofNat]
  omega

theorem man32_widen_of_subnormal {h : Half} (hE : (exp16 h).toNat = 0) (hm : (man16 h).toNat ≠ 0) :
    (man32 (widen h)).toNat = (man16 h).toNat * 2 ^ normShift (man16 h).toNat % 2 ^ 10 * 2 ^ 13 := by
  rw [widen_of_subnormal hE hm, widenSubnormal, man32_packSingle, BitVec.toNat_ofNat, Nat.shiftLeft_eq, Nat.shiftLeft_eq]
  omega

theorem exp32_widen_of_normal {h : Half} (hlo : 1 ≤ (exp16 h).toNat) (hhi : (exp16 h).toNat ≤ 30) :
    (exp32 (widen h)).toNat = (exp16 h).toNat + 112 := by
  rw [widen_of_normal hlo hhi, widenNormal, exp32_packSingle, BitVec.toNat_ofNat]
  omega

theorem man32_widen_of_normal {h : Half} (hlo : 1 ≤ (exp16 h).toNat) (hhi : (exp16 h).toNat ≤ 30) :
    (man32 (widen h)).toNat = (man16 h).toNat * 2 ^ 13 := by
  rw [widen_of_normal hlo hhi, widenNormal, man32_packSingle, widenMantissa_toNat]
  rfl

theorem exp32_widen_of_exp_max {h : Half} (hE : (exp16 h).toNat = 31) : (exp32 (widen h)).toNat = 255 := by
  by_cases hm : (man16 h).toNat = 0
  · rw [widen_of_inf hE hm, exp32_packSingle]
    rfl
  · rw [widen_of_nan ((isNaN16_iff h).mpr ⟨hE, hm⟩), widenNaN, exp32_packSingle]
    rfl

theorem man32_widen_of_exp_max {h : Half} (hE : (exp16 h).toNat = 31) :
    (man32 (widen h)).toNat = (man16 h).toNat * 2 ^ 13 := by
  by_cases hm : (man16 h).toNat = 0
  · rw [widen_of_inf hE hm, man32_packSingle, hm]
    rfl
  · rw [widen_of_nan ((isNaN16_iff h).mpr ⟨hE, hm⟩), widenNaN, man32_packSingle, widenMantissa_toNat]
    rfl

/-- A finite Half widens to a Single of the same magnitude (40_bit_codec R83). -/
theorem units32_widen {h : Half} (hE : (exp16 h).toNat ≠ 31) : units32 (widen h) = fineUnits (mag16 h).toNat := by
  have hE' := (exp16 h).isLt
  have hm' := (man16 h).isLt
  rw [fineUnits, ← units16_eq_halfUnits, units16]
  by_cases h0 : (exp16 h).toNat = 0
  · rw [if_pos h0]
    by_cases hm : (man16 h).toNat = 0
    · rw [units32, if_pos (exp32_widen_of_zero h0 hm), man32_widen_of_zero h0 hm, hm, Nat.zero_mul]
    · obtain ⟨hk1, hk10, hlo, hhi⟩ := normShift_spec hm hm'
      have hexp := exp32_widen_of_subnormal h0 hm
      have hsig : significand (widen h) = (man16 h).toNat * 2 ^ normShift (man16 h).toNat * 2 ^ 13 := by
        rw [significand, man32_widen_of_subnormal h0 hm]
        omega
      have hpow : normShift (man16 h).toNat + 13 + (113 - normShift (man16 h).toNat - 1) = 125 := by omega
      rw [units32_eq (by omega), hsig, hexp, Nat.mul_assoc, Nat.mul_assoc, ← pow_add, ← pow_add, ← Nat.add_assoc, hpow]
  · have hexp := exp32_widen_of_normal (h := h) (by omega) (by omega)
    have hsig : significand (widen h) = (1024 + (man16 h).toNat) * 2 ^ 13 := by
      rw [significand, man32_widen_of_normal (by omega) (by omega)]
      omega
    have hpow : 13 + ((exp16 h).toNat + 112 - 1) = (exp16 h).toNat - 1 + 125 := by omega
    rw [if_neg h0, units32_eq (by omega), hsig, hexp, Nat.mul_assoc, Nat.mul_assoc, ← pow_add, ← pow_add, hpow]

/-- The exponent field is 255 for an infinity or a NaN only. -/
theorem exp32_widen_eq_max_iff (h : Half) : (exp32 (widen h)).toNat = 255 ↔ (exp16 h).toNat = 31 := by
  refine ⟨fun hmax => ?_, exp32_widen_of_exp_max⟩
  by_contra hE
  have hE' := (exp16 h).isLt
  by_cases h0 : (exp16 h).toNat = 0
  · by_cases hm : (man16 h).toNat = 0
    · rw [exp32_widen_of_zero h0 hm] at hmax
      omega
    · rw [exp32_widen_of_subnormal h0 hm] at hmax
      omega
  · rw [exp32_widen_of_normal (by omega) (by omega)] at hmax
    omega

/-- Exactly the NaNs widen to NaNs. -/
@[simp] theorem isNaN32_widen (h : Half) : isNaN32 (widen h) = isNaN16 h := by
  rw [Bool.eq_iff_iff, isNaN32_iff, isNaN16_iff, exp32_widen_eq_max_iff]
  refine and_congr_right fun hE => ?_
  rw [man32_widen_of_exp_max hE]
  omega

/-- Widening is exact (40_bit_codec R83). -/
theorem val32_widen {h : Half} (hn : isNaN16 h = false) : val32 (widen h) = val16 h := by
  by_cases hE : (exp16 h).toNat = 31
  · have hm : (man16 h).toNat = 0 := by
      rw [← Bool.not_eq_true, isNaN16_iff] at hn
      omega
    rw [val16_of_infinity (class16_eq_infinity hE hm), val32_of_infinity, sign32_widen]
    exact class32_eq_infinity (exp32_widen_of_exp_max hE) (by rw [man32_widen_of_exp_max hE, hm, Nat.zero_mul])
  · have hE32 : exp32 (widen h) ≠ 255 := fun hmax => hE ((exp32_widen_eq_max_iff h).mp (by rw [hmax]; rfl))
    have hE16 : exp16 h ≠ 31 := fun hmax => hE (by rw [hmax]; rfl)
    rw [val32_eq_units hE32, val16_eq_units hE16, units32_widen hE, sign32_widen, fineUnits, ← units16_eq_halfUnits]
    congr 1
    push_cast
    ring

/-- Narrowing a widened Half gives it back (40_bit_codec R96). -/
theorem narrow_widen {h : Half} (hn : isNaN16 h = false) : narrow (widen h) = h := by
  have hn32 : isNaN32 (widen h) = false := by rw [isNaN32_widen, hn]
  refine half_ext (by simp) (BitVec.eq_of_toNat_eq ?_)
  by_cases hE : (exp16 h).toNat = 31
  · rw [mag16_narrow_of_overflow hn32 (by rw [exp32_widen_of_exp_max hE]; omega)]
    have hle := mag16_le_of_not_nan hn
    rw [exp16_toNat_eq_mag] at hE
    omega
  · have hround := narrow_roundsTo hn32
    rw [units32_widen hE] at hround
    exact hround.eq_of_fineUnits (mag16_le_of_not_nan hn)

/-- A Half is its fields put together. -/
theorem packHalf_fields (h : Half) : packHalf (sign16 h) (exp16 h) (man16 h) = h := by
  apply BitVec.eq_of_toNat_eq
  rw [packHalf_toNat, sign16_toNat, exp16_toNat, man16_toNat]
  have := h.isLt
  omega

theorem packHalf_or (sg sg' : BitVec 1) (E E' : BitVec 5) (m m' : BitVec 10) :
    packHalf sg E m ||| packHalf sg' E' m' = packHalf (sg ||| sg') (E ||| E') (m ||| m') := by
  have hupper : (sg ++ E) ||| (sg' ++ E') = (sg ||| sg') ++ (E ||| E') := BitVec.or_append
  exact BitVec.or_append.trans (congrArg (· ++ (m ||| m')) hupper)

theorem exp16_of_nan {h : Half} (hn : isNaN16 h = true) : exp16 h = 31#5 := BitVec.eq_of_toNat_eq ((isNaN16_iff h).mp hn).1

theorem widenMantissa_getLsbD (m : BitVec 10) (i : Nat) : (widenMantissa m).getLsbD (13 + i) = m.getLsbD i :=
  BitVec.getLsbD_append.trans (by simp)

/-- The payload of a widened mantissa below the quiet bit, with the quiet bit set: the mantissa with its top bit set. -/
theorem quiet_extract_widenMantissa (m : BitVec 10) :
    1#1 ++ (widenMantissa m).extractLsb' 13 9 = m ||| BitVec.twoPow 10 9 := by
  refine BitVec.eq_of_getLsbD_eq fun i hi => ?_
  rw [BitVec.getLsbD_append, BitVec.getLsbD_or, BitVec.getLsbD_extractLsb', widenMantissa_getLsbD, BitVec.getLsbD_twoPow]
  rcases Nat.lt_or_ge i 9 with h9 | h9
  · simp [h9, h9.ne']
  · obtain rfl : i = 9 := by omega
    simp

/-- A widened NaN narrows to itself with the quiet bit set. -/
theorem narrow_widen_of_nan {h : Half} (hn : isNaN16 h = true) : narrow (widen h) = h ||| 0x0200#16 := by
  have hquiet : (0x0200#16 : Half) = packHalf 0#1 0#5 (BitVec.twoPow 10 9) := rfl
  have hn32 : isNaN32 (widen h) = true := by rw [isNaN32_widen, hn]
  rw [narrow_of_nan hn32, narrowNaN, sign32_widen, widen_of_nan hn, widenNaN, man32_packSingle,
    quiet_extract_widenMantissa, hquiet]
  conv_rhs => rw [← packHalf_fields h, packHalf_or, exp16_of_nan hn]
  simp

/-- Setting a bit that is set changes nothing. -/
theorem or_twoPow_eq_self {w i : Nat} {x : BitVec w} (h : x.getLsbD i = true) : x ||| BitVec.twoPow w i = x := by
  refine BitVec.eq_of_getLsbD_eq fun j _ => ?_
  rw [BitVec.getLsbD_or, BitVec.getLsbD_twoPow]
  by_cases hj : i = j
  · rw [← hj, h, Bool.true_or]
  · simp [hj]

/-- Settles O44: off the NaNs a widened Half is a value of the format; a NaN comes back as a quiet one with its payload; the least
positive Single and zero narrow to the same Half. -/
theorem narrowOfWidenIsTheIdentity : Obligations.NarrowOfWidenIsTheIdentity := by
  refine ⟨fun h => narrow_widen, fun h => narrow_widen_of_nan, fun h hq => ?_, 0#32, 1#32, by decide, by decide⟩
  obtain ⟨hn, hbit⟩ : isNaN16 h = true ∧ h.getLsbD 9 = true := Bool.and_eq_true_iff.mp hq
  exact (narrow_widen_of_nan hn).trans (or_twoPow_eq_self hbit)

theorem half_ext_fields {h h' : Half} (hs : sign16 h = sign16 h') (hE : exp16 h = exp16 h') (hm : man16 h = man16 h') :
    h = h' := by
  rw [← packHalf_fields h, ← packHalf_fields h', hs, hE, hm]

/-- No two Halves widen to one Single: narrowing undoes widening off the NaNs, and a NaN's payload is kept. -/
theorem widen_injective {h h' : Half} (heq : widen h = widen h') : h = h' := by
  have hnan : isNaN16 h = isNaN16 h' := by rw [← isNaN32_widen, heq, isNaN32_widen]
  by_cases hn : isNaN16 h = true
  · have hn' : isNaN16 h' = true := hnan ▸ hn
    have hE := (isNaN16_iff h).mp hn
    have hE' := (isNaN16_iff h').mp hn'
    refine half_ext_fields ?_ ((exp16_of_nan hn).trans (exp16_of_nan hn').symm) (BitVec.eq_of_toNat_eq ?_)
    · rw [← sign32_widen, heq, sign32_widen]
    · have hman := man32_widen_of_exp_max hE.1
      rw [heq, man32_widen_of_exp_max hE'.1] at hman
      omega
  · rw [Bool.not_eq_true] at hn
    rw [← narrow_widen hn, heq, narrow_widen (hnan ▸ hn)]

/-- Settles O31: a finite Half widens to the Single of the same units, and widening is injective. -/
theorem wideningIsExactAndInjective : Obligations.WideningIsExactAndInjective :=
  ⟨fun h hn => ⟨val32_widen hn, sign32_widen h⟩, fun _ _ => widen_injective⟩

end Sys2Proof.Machine
end

section
/-! The codec's instructions on `y`: what H2S and S2H put there, in each case of the operand (40_bit_codec R82, R85, R90). -/

namespace Sys2Proof.Machine

/-- An instruction puts its result on `y` and leaves everything else. -/
theorem exec_eq (i : Instr) (s : State) : exec i s = .next { s with y := some (resultOf i) } := exec_eq_writeY i s

/-- Settles O15: an instruction writes its result, the same for every state, on `y`. -/
theorem everyInstructionCompletesAndChangesOnlyY : Obligations.EveryInstructionCompletesAndChangesOnlyY :=
  fun i => ⟨resultOf i, exec_eq i⟩

/-- An H2S command runs H2S on `a[15:0]`, whatever its other bits are. -/
theorem step_h2s {c : Command} {h : Half} (hop : c.op = 0) (ha : c.a.extractLsb' 0 16 = h) (s : State) :
    step (s.presentNow c) = .next { s with y := some (widen h) } := by
  subst ha
  exact step_presentNow_of_decode_ok (decode_eq_h2s (by rw [hop]; rfl)) s

/-- An S2H command runs S2H on `a`, whatever `b` is. -/
theorem step_s2h {c : Command} {x : Single} (hop : c.op = 1) (ha : c.a = x) (s : State) :
    step (s.presentNow c) = .next { s with y := some (halfOnY (narrow x)) } := by
  subst ha
  exact step_presentNow_of_decode_ok (decode_eq_s2h (by rw [hop]; rfl)) s

/-- The shift of R80 is the least that brings a bit of the mantissa to bit 10. -/
theorem normShift_testBit {m : Nat} (h0 : m ≠ 0) (hlt : m < 1024) :
    (m * 2 ^ normShift m).testBit 10 = true ∧ ∀ j < normShift m, (m * 2 ^ j).testBit 10 = false := by
  obtain ⟨-, -, hlo, hhi⟩ := normShift_spec h0 hlt
  refine ⟨?_, fun j hj => Nat.testBit_lt_two_pow ?_⟩
  · rw [Nat.testBit_eq_decide_div_mod_eq, decide_eq_true_eq]
    omega
  · have hpow : 2 ^ j * 2 ≤ 2 ^ normShift m := by
      rw [← pow_succ]
      exact Nat.pow_le_pow_right two_pos hj
    have hmul := Nat.mul_le_mul_left m hpow
    rw [← Nat.mul_assoc] at hmul
    omega

/-- Settles O30: the cases of R82, and the fields of the Single of each. -/
theorem widenedSingleHasTheFieldsOfItsCase : Obligations.WidenedSingleHasTheFieldsOfItsCase := by
  intro h s
  have hlt := (man16 h).isLt
  refine ⟨widen h, exec_eq _ s, fun c hop ha => step_h2s hop ha s, sign32_widen h, fun ⟨hE, hm⟩ => ?zero,
    fun ⟨hE, hm⟩ => ?subnormal, fun ⟨hlo, hhi⟩ => ?normal, fun ⟨hE, hm⟩ => ?infinity, fun ⟨hE, hm⟩ => ?nan⟩
  case zero => exact ⟨exp32_widen_of_zero hE hm, man32_widen_of_zero hE hm⟩
  case subnormal =>
    obtain ⟨hk1, hk10, -, -⟩ := normShift_spec hm hlt
    obtain ⟨hbit, hleast⟩ := normShift_testBit hm hlt
    exact ⟨_, hk1, hk10, hbit, fun j _ hj => hleast j hj, exp32_widen_of_subnormal hE hm, man32_widen_of_subnormal hE hm⟩
  case normal => exact ⟨exp32_widen_of_normal hlo hhi, man32_widen_of_normal hlo hhi⟩
  case infinity => exact ⟨exp32_widen_of_exp_max hE, by rw [man32_widen_of_exp_max hE, hm, Nat.zero_mul]⟩
  case nan => exact ⟨exp32_widen_of_exp_max hE, man32_widen_of_exp_max hE⟩

/-- Settles O34: the remainder is the highest discarded bit above those below it, so it is above half exactly when that bit is
set and one below it is, and half exactly when that bit alone is set. -/
theorem roundingIncrementComparesTheWholeRemainder : Obligations.RoundingIncrementComparesTheWholeRemainder := by
  intro M sh lsb hsh
  obtain ⟨n, rfl⟩ : ∃ n, sh = n + 1 := ⟨sh - 1, by omega⟩
  have hrem : M % 2 ^ (n + 1) = M % 2 ^ n + 2 ^ n * (M / 2 ^ n % 2) := Nat.mod_pow_succ
  have hbelow : M % 2 ^ n < 2 ^ n := Nat.mod_lt _ (Nat.two_pow_pos n)
  have hle := rneInc_le_one M (n + 1) lsb
  have hone := rneInc_eq_one_iff M (n + 1) lsb
  rw [Nat.testBit_eq_decide_div_mod_eq, decide_eq_true_eq]
  rw [Nat.add_sub_cancel] at *
  refine ⟨by omega, by omega, by omega, by omega, ?_⟩
  rw [hone, hrem]
  rcases Nat.mod_two_eq_zero_or_one (M / 2 ^ n) with hbit | hbit <;> rw [hbit] <;> omega

theorem narrowRounded_normal (x : Single) {e : Int} (he : -14 ≤ e) :
    narrowRounded x e = (e + 15).toNat * 2 ^ 10 + (man32 x).toNat / 2 ^ 13 +
      rneInc (significand x) 13 (((e + 15).toNat * 2 ^ 10 + (man32 x).toNat / 2 ^ 13) % 2) := by
  rw [narrowRounded, narrowBase, narrowShift, if_pos he, if_pos he, Nat.shiftRight_eq_div_pow]

theorem narrowRounded_subnormal (x : Single) {e : Int} (he : e ≤ -15) :
    narrowRounded x e = significand x / 2 ^ (-1 - e).toNat +
      rneInc (significand x) (-1 - e).toNat (significand x / 2 ^ (-1 - e).toNat % 2) := by
  rw [narrowRounded, narrowBase, narrowShift, if_neg (by omega), if_neg (by omega), Nat.shiftRight_eq_div_pow]

theorem mag16_narrowNaN (x : Single) : (mag16 (narrowNaN x)).toNat = 0x7C00 + 0x200 + (man32 x).toNat / 2 ^ 13 % 2 ^ 9 := by
  rw [narrowNaN, mag16_packHalf_toNat, toNat_append_eq, BitVec.extractLsb'_toNat, Nat.shiftRight_eq_div_pow]
  simp only [BitVec.toNat_ofNat]
  omega

/-- Settles O35: the cases of R90, each with the magnitude its branch of S2H gives. -/
theorem narrowedHalfFollowsTheRoundingAlgorithm : Obligations.NarrowedHalfFollowsTheRoundingAlgorithm := by
  intro x s
  have hlt := (exp32 x).isLt
  refine ⟨narrow x, exec_eq _ s, fun c hop ha => step_s2h hop ha s, sign16_narrow x, fun hnan => ?nan,
    fun ⟨hE, hf⟩ => ?infinity, fun h0 => ?zero, fun ⟨hlo, hhi, he⟩ => ?overflow, fun ⟨_, he⟩ => ?underflow,
    fun ⟨hlo, hhi⟩ => ?normal, fun ⟨hlo, hhi⟩ => ?subnormal⟩
  case nan => rw [narrow_of_nan ((isNaN32_iff x).mpr hnan), mag16_narrowNaN]
  case infinity => exact mag16_narrow_of_overflow (by simp [isNaN32_eq_class, class32_eq_infinity hE hf]) (by omega)
  case zero => exact mag16_narrow_of_underflow (by omega)
  case overflow => exact mag16_narrow_of_overflow (by simp [isNaN32_eq_class, class32_eq_normal hlo hhi]) (by omega)
  case underflow => exact mag16_narrow_of_underflow (by omega)
  case normal => exact (mag16_narrow_of_rounded (by omega) (by omega)).trans (narrowRounded_normal x hlo)
  case subnormal => exact (mag16_narrow_of_rounded (by omega) (by omega)).trans (narrowRounded_subnormal x hhi)

/-- Words side by side are the same number however they are grouped. -/
theorem toNat_append_append {a b c : Nat} (x : BitVec a) (y : BitVec b) (z : BitVec c) :
    (x ++ (y ++ z)).toNat = (x ++ y ++ z).toNat := by
  rw [BitVec.append_assoc, BitVec.toNat_cast]

theorem halfOnY_packHalf (sg : BitVec 1) (E : BitVec 5) (m : BitVec 10) :
    halfOnY (packHalf sg E m) = 0#16 ++ sg ++ E ++ m := by
  have hupper : (0#16 ++ (sg ++ E) : BitVec 22) = 0#16 ++ sg ++ E := BitVec.eq_of_toNat_eq (toNat_append_append ..)
  exact (BitVec.eq_of_toNat_eq (toNat_append_append 0#16 (sg ++ E) m)).trans (congrArg (· ++ m) hupper)

theorem halfOnY_narrowNaN (x : Single) :
    halfOnY (narrowNaN x) = 0#16 ++ sign32 x ++ 0b11111#5 ++ 1#1 ++ (man32 x).extractLsb' 13 9 := by
  rw [narrowNaN, halfOnY_packHalf]
  exact BitVec.eq_of_toNat_eq (toNat_append_append (0#16 ++ sign32 x ++ 0b11111#5) 1#1 _)

theorem widenNaN_eq (h : Half) : widenNaN h = sign16 h ++ 0xFF#8 ++ man16 h ++ 0#13 :=
  BitVec.eq_of_toNat_eq (toNat_append_append (sign16 h ++ 0xFF#8) (man16 h) 0#13)

theorem getLsbD_man16 (h : Half) {i : Nat} (hi : i < 10) : (man16 h).getLsbD i = h.getLsbD i := by
  simp [man16, hi]

theorem getLsbD_man32 (x : Single) {i : Nat} (hi : i < 23) : (man32 x).getLsbD i = x.getLsbD i := by
  simp [man32, hi]

/-- Settles O32: H2S of a NaN is its fields with 13 zeros below, so the quiet bit is the Half's own. -/
theorem widenedNaNKeepsSignAndPayload : Obligations.WidenedNaNKeepsSignAndPayload := by
  refine ⟨fun h s hn => ⟨?_, by rw [isNaN32_widen, hn], sign32_widen h, ?_⟩, by decide, by decide⟩
  · rw [exec_eq, resultOf, widen_of_nan hn, widenNaN_eq]
  · have hquiet : (widen h).getLsbD 22 = h.getLsbD 9 := by
      rw [← getLsbD_man32 _ (by omega), widen_of_nan hn, widenNaN, man32_packSingle, ← getLsbD_man16 h (by omega)]
      exact widenMantissa_getLsbD (man16 h) 9
    rw [isQuietNaN32, isQuietNaN16, isNaN32_widen, hquiet]

/-- Settles O37: S2H of a NaN is written with its quiet bit set, which puts it above infinity. -/
theorem narrowedNaNIsAQuietNaN : Obligations.NarrowedNaNIsAQuietNaN := by
  refine ⟨fun x s hn => ⟨?_, ?_, sign16_narrow x⟩, by decide⟩
  · rw [exec_eq, resultOf, narrow_of_nan hn, halfOnY_narrowNaN]
  · have hnan : isNaN16 (narrowNaN x) = true := by
      rw [isNaN16_iff_mag, mag16_narrowNaN]
      omega
    have hquiet : (narrowNaN x).getLsbD 9 = true := by
      rw [← getLsbD_man16 _ (by omega), narrowNaN, man16_packHalf, BitVec.getLsbD_append]
      rfl
    rw [narrow_of_nan hn, isQuietNaN16, hnan, hquiet]
    rfl

/-- Settles O36: the branch of an infinity, for each sign. -/
theorem narrowedInfinityIsTheSignedInfinity : Obligations.NarrowedInfinityIsTheSignedInfinity := by
  intro x s hi
  rw [exec_eq, resultOf, narrow_of_inf hi, infinity16, halfOnY_packHalf]
  exact ⟨rfl, fun hs => by rw [hs]; rfl, fun hs => by rw [hs]; rfl⟩

/-- Settles O39: every branch of S2H keeps the sign field, which is the top bit. -/
theorem narrowingKeepsTheSign : Obligations.NarrowingKeepsTheSign := by
  intro x
  have htop := congrArg (·.getLsbD 0) (sign16_narrow x)
  simpa [sign16, sign32, BitVec.getLsbD_extractLsb'] using htop

end Sys2Proof.Machine
end

section
/-! The thresholds of S2H (40_bit_codec R89, R93), its two rounding paths by fields (R94, R95) and the ranges of its intermediate
values (R98). -/

namespace Sys2Proof.Machine

/-- The overflow threshold read off the fields: an exponent above 15, or exponent 15 and a mantissa that rounds up to 1024. -/
theorem overflow_units32_iff (x : Single) :
    65520 * 2 ^ 149 ≤ units32 x ↔ 143 ≤ (exp32 x).toNat ∨ ((exp32 x).toNat = 142 ∧ 0x7FF000 ≤ (man32 x).toNat) := by
  rcases lt_trichotomy (exp32 x).toNat 142 with hlt | heq | hgt
  · have hU := units32_lt x
    have hpow : 2 ^ ((exp32 x).toNat - 1) ≤ 2 ^ 140 := Nat.pow_le_pow_right two_pos (by omega)
    omega
  · rw [units32_eq (by omega), significand, heq]
    omega
  · have hU := fineUnits_infinity_le_units32 hgt
    rw [fineUnits_infinity] at hU
    omega

/-- From 65504 on, and below 65520, a magnitude rounds to 65504. -/
theorem RoundsTo.eq_largest {U r : Nat} (h : RoundsTo U r) (hlo : 65504 * 2 ^ 149 ≤ U) (hhi : U < 65520 * 2 ^ 149) :
    r = 0x7BFF := by
  have hbelow : fineUnits 0x7BFE + fineUnits (0x7BFE + 1) < 2 * (65504 * 2 ^ 149) := by norm_num [fineUnits, halfUnits]
  have habove : fineUnits 0x7BFF + fineUnits (0x7BFF + 1) = 2 * (65520 * 2 ^ 149) := by norm_num [fineUnits, halfUnits]
  have h1 := h.2 0x7BFE (by omega)
  have h2 := h.2 0x7BFF (by omega)
  omega

/-- Settles O38: the infinite results are those from the midpoint 65520 on, and the midpoint is also a bound on the fields. -/
theorem overflowIsJudgedAfterRounding : Obligations.OverflowIsJudgedAfterRounding := by
  intro x q hq
  have hn := isNaN32_of_val32_eq_num hq
  refine ⟨?_, isInf16_narrow_iff_abs hq, fun hlo hhi => ?_⟩
  · rw [isInf16_narrow_iff hn, overflow_units32_iff]
    have := (man32 x).isLt
    omega
  · rw [abs_val32 hq, le_div_iff₀ (by positivity)] at hlo
    rw [abs_val32 hq, div_lt_iff₀ (by positivity)] at hhi
    refine half_ext (by simp) (BitVec.eq_of_toNat_eq ?_)
    rw [(narrow_roundsTo hn).eq_largest (by exact_mod_cast hlo) (by exact_mod_cast hhi), mag16_packMagnitude]
    rfl

theorem packMagnitude_one (sg : BitVec 1) : packMagnitude sg 1#15 = sg ++ 0#14 ++ 1#1 :=
  BitVec.eq_of_toNat_eq (toNat_append_append sg 0#14 1#1)

theorem narrow_eq_iff (x : Single) (r : BitVec 15) : narrow x = packMagnitude (sign32 x) r ↔ mag16 (narrow x) = r := by
  refine ⟨fun h => by rw [h, mag16_packMagnitude], fun h => half_ext (by simp) ?_⟩
  rw [h, mag16_packMagnitude]

/-- The result is zero exactly up to half of the smallest subnormal, the tie included. -/
theorem RoundsTo.eq_zero_iff {U r : Nat} (h : RoundsTo U r) : r = 0 ↔ U ≤ 2 ^ 124 := by
  have := h.2 0 (by omega)
  rw [fineUnits_zero, Nat.zero_add, fineUnits_one] at this
  omega

/-- Between half of the smallest subnormal and the smallest subnormal a magnitude rounds up. -/
theorem RoundsTo.eq_one {U r : Nat} (h : RoundsTo U r) (hlo : 2 ^ 124 < U) (hhi : U < 2 ^ 125) : r = 1 := by
  have htwo : fineUnits (1 + 1) = 2 ^ 126 := by norm_num [fineUnits, halfUnits]
  have hzero := h.eq_zero_iff
  have := h.2 1 (by omega)
  rw [fineUnits_one, htwo] at this
  omega

/-- Settles O40: the results that are zero are those up to the midpoint 2^-25, and exponent -25 is the one that holds it. -/
theorem underflowGivesTheSignedZeroUpToHalfTheSmallest : Obligations.UnderflowGivesTheSignedZeroUpToHalfTheSmallest := by
  intro x q hq
  have hround := narrow_roundsTo (isNaN32_of_val32_eq_num hq)
  have hzero : narrow x = packMagnitude (sign32 x) 0#15 ↔ units32 x ≤ 2 ^ 124 := by
    rw [narrow_eq_iff, ← BitVec.toNat_inj]
    exact hround.eq_zero_iff
  refine ⟨?_, narrow_of_exp_zero, fun he => narrow_of_underflow (by omega), fun he hf => ?_, fun he hf => ?_⟩
  · refine hzero.trans ?_
    rw [abs_val32 hq, div_le_iff₀ (by positivity)]
    norm_num
  · refine hzero.mpr ?_
    have hE : (exp32 x).toNat = 102 := by omega
    rw [units32_eq (by omega), hE, significand, hf, BitVec.ofNat_eq_ofNat, BitVec.toNat_ofNat]
    norm_num
  · have hE : (exp32 x).toNat = 102 := by omega
    have hf' : (man32 x).toNat ≠ 0 := fun h0 => hf (BitVec.eq_of_toNat_eq h0)
    have hlt := (man32 x).isLt
    have hU : units32 x = (2 ^ 23 + (man32 x).toNat) * 2 ^ 101 := by rw [units32_eq (by omega), hE, significand]
    rw [← packMagnitude_one, narrow_eq_iff, ← BitVec.toNat_inj, hround.eq_one (by omega) (by omega)]
    rfl

/-- Settles O41: on the subnormal path the magnitude is `r`, at most 1024, and its fields are those of `r`. -/
theorem subnormalResultIsTheShiftedSignificandRounded : Obligations.SubnormalResultIsTheShiftedSignificandRounded := by
  intro x e he hlo hhi
  have hmag := mag16_narrow_of_rounded (x := x) (by omega) (by omega)
  rw [← he, narrowRounded_subnormal x hhi] at hmag
  have hshift : narrowShift e = (-1 - e).toNat := if_neg (by omega)
  obtain ⟨-, hkept, -⟩ := keptBits_bounds x (E := (exp32 x).toNat) (by omega)
  rw [← he, hshift] at hkept
  have hinc := rneInc_le_one (significand x) (-1 - e).toNat (significand x / 2 ^ (-1 - e).toNat % 2)
  refine ⟨(mag16 (narrow x)).toNat, (-1 - e).toNat, by omega, by omega, by omega, by omega, hmag, sign16_narrow x, by omega,
    fun hr => ⟨BitVec.eq_of_toNat_eq ?_, ?_⟩, fun hr => BitVec.eq_of_toNat_eq hr⟩
  · rw [exp16_toNat_eq_mag, Nat.div_eq_of_lt (by omega)]
    rfl
  · rw [man16_toNat_eq_mag, Nat.mod_eq_of_lt (by omega)]

/-- The rebiased exponent beside the ten kept bits of the mantissa, as a number. -/
theorem exponent_append_kept_toNat (f : BitVec 23) {e : Int} (hlo : -14 ≤ e) (hhi : e ≤ 15) :
    (BitVec.ofInt 5 (e + 15) ++ f.extractLsb' 13 10).toNat = (e + 15).toNat * 2 ^ 10 + f.toNat / 2 ^ 13 := by
  have hlt := f.isLt
  rw [toNat_append_eq, BitVec.toNat_ofInt, BitVec.extractLsb'_toNat, Nat.shiftRight_eq_div_pow]
  omega

/-- The increment of the normal path: the discarded bits are the mantissa's low 13, and the last kept bit is bit 13. -/
theorem rneInc_normal_eq_one_iff (x : Single) (k : Nat) :
    rneInc (significand x) 13 ((k * 2 ^ 10 + (man32 x).toNat / 2 ^ 13) % 2) = 1 ↔
      (man32 x).toNat % 2 ^ 13 > 0x1000 ∨ ((man32 x).toNat % 2 ^ 13 = 0x1000 ∧ (man32 x).getLsbD 13 = true) := by
  rw [rneInc_eq_one_iff, significand, BitVec.getLsbD, Nat.testBit_eq_decide_div_mod_eq, decide_eq_true_eq]
  omega

/-- Settles O42: on the normal path the magnitude is the exponent beside the kept mantissa, plus the increment, so a full mantissa
carries. -/
theorem normalResultCarriesIntoTheExponent : Obligations.NormalResultCarriesIntoTheExponent := by
  intro x e he hlo hhi
  have hmag := mag16_narrow_of_rounded (x := x) (by omega) (by omega)
  rw [← he, narrowRounded_normal x hlo] at hmag
  have hiff := rneInc_normal_eq_one_iff x (e + 15).toNat
  have hinc := rneInc_le_one (significand x) 13 (((e + 15).toNat * 2 ^ 10 + (man32 x).toNat / 2 ^ 13) % 2)
  generalize rneInc (significand x) 13 (((e + 15).toNat * 2 ^ 10 + (man32 x).toNat / 2 ^ 13) % 2) = inc at *
  rw [← exponent_append_kept_toNat (man32 x) hlo hhi] at hmag
  have hcarry : (man32 x).extractLsb' 13 10 = 0x3FF#10 → inc = 1 → (mag16 (narrow x)).toNat = (e + 16).toNat * 1024 := by
    intro hfull hone
    rw [hmag, toNat_append_eq, hfull, BitVec.toNat_ofInt, hone]
    simp only [BitVec.toNat_ofNat]
    omega
  refine ⟨inc, hiff, by omega, sign16_narrow x, hmag, fun hfull hone => ?_, fun htop hfull hone => BitVec.eq_of_toNat_eq ?_⟩
  · rw [man16_toNat_eq_mag, exp16_toNat_eq_mag, hcarry hfull hone]
    omega
  · rw [hcarry hfull hone, htop]
    rfl

theorem exp16_of_subnormal {h : Half} (hc : class16 h = .subnormal) : (exp16 h).toNat = 0 ∧ (man16 h).toNat ≠ 0 := by
  have hsub : isSub16 h = true := by rw [isSub16_eq_class, hc]; rfl
  simpa [isSub16, ← BitVec.toNat_inj] using hsub

theorem exp16_of_normal {h : Half} (hc : class16 h = .normal) : 1 ≤ (exp16 h).toNat ∧ (exp16 h).toNat ≤ 30 := by
  have hlt := (exp16 h).isLt
  have h0 : (exp16 h).toNat ≠ 0 := fun h0 => by
    by_cases hm : (man16 h).toNat = 0
    · simp [class16_eq_zero h0 hm] at hc
    · simp [class16_eq_subnormal h0 hm] at hc
  have h31 : (exp16 h).toNat ≠ 31 := fun h31 => by
    by_cases hm : (man16 h).toNat = 0
    · simp [class16_eq_infinity h31 hm] at hc
    · simp [class16_eq_nan h31 hm] at hc
  omega

theorem exp16_of_inf_or_nan {h : Half} (hc : class16 h = .infinity ∨ class16 h = .nan) : (exp16 h).toNat = 31 := by
  rcases hc with hc | hc
  · have hinf : isInf16 h = true := by rw [isInf16_eq_class, hc]; rfl
    rw [exp16_toNat_eq_mag, (isInf16_iff_mag h).mp hinf]
  · have hnan : isNaN16 h = true := by rw [isNaN16_eq_class, hc]; rfl
    exact ((isNaN16_iff h).mp hnan).1

/-- Settles O46: the ranges of S2H from the kept bits and from the bound of a rounded magnitude, those of H2S case by case. -/
theorem noIntermediateValueWraps : Obligations.NoIntermediateValueWraps := by
  refine ⟨fun x e he h1 h254 => ⟨by omega, by omega, significand_lt x, fun hlo hhi => ?_⟩, fun h hc => ?_, fun h hc => ?_,
    fun h hc => exp32_widen_of_exp_max (exp16_of_inf_or_nan hc)⟩
  · have hrounded := (narrowRounded_roundsTo (x := x) (by omega) (by omega)).1
    obtain ⟨-, -, hkept⟩ := keptBits_bounds x (E := (exp32 x).toNat) (by omega)
    have hbase := narrowBase_eq x (exp32 x).toNat
    rw [← he] at hrounded hkept hbase
    have hshift : 13 ≤ narrowShift e ∧ narrowShift e ≤ 24 := by
      rw [narrowShift]
      split <;> omega
    exact ⟨hshift.1, hshift.2, by omega, hrounded⟩
  · obtain ⟨hE, hm⟩ := exp16_of_subnormal hc
    obtain ⟨hk1, hk10, -, -⟩ := normShift_spec hm (man16 h).isLt
    rw [exp32_widen_of_subnormal hE hm]
    omega
  · obtain ⟨hlo, hhi⟩ := exp16_of_normal hc
    rw [exp32_widen_of_normal hlo hhi]
    omega

end Sys2Proof.Machine
end

section
/-! The ordering key (41_comparator R121): the key of a Half that is not a NaN is its signed magnitude, and signed magnitudes are
ordered as the signed units they stand for, so as the values are. -/

namespace Sys2Proof.Machine

theorem key_eq_signedUnits (h : Half) : key h = signedUnits (sign16 h) (mag16 h).toNat := by
  rw [key]
  rcases BitVec.eq_zero_or_eq_one (sign16 h) with hs | hs <;> simp [hs]

theorem key_natAbs (h : Half) : (key h).natAbs = (mag16 h).toNat := by
  rw [key_eq_signedUnits, signedUnits_natAbs]

/-- The key is between those of the infinities (41_comparator R121). -/
theorem key_bounds {h : Half} (hn : isNaN16 h = false) : -31744 ≤ key h ∧ key h ≤ 31744 := by
  have hmag := mag16_le_of_not_nan hn
  have habs := key_natAbs h
  omega

/-- A strictly increasing scale that starts at zero keeps the order of signed magnitudes. -/
theorem signedUnits_le_iff_of_strictMono {f : Nat → Nat} (hf : StrictMono f) (h0 : f 0 = 0) (sg sg' : BitVec 1) (m n : Nat) :
    signedUnits sg (f m) ≤ signedUnits sg' (f n) ↔ signedUnits sg m ≤ signedUnits sg' n := by
  have hzero : ∀ k, f k = 0 ↔ k = 0 := fun k => by rw [← h0, hf.injective.eq_iff, h0]
  have hm := hzero m
  have hn := hzero n
  have hmn : f m ≤ f n ↔ m ≤ n := hf.le_iff_le
  have hnm : f n ≤ f m ↔ n ≤ m := hf.le_iff_le
  rcases BitVec.eq_zero_or_eq_one sg with rfl | rfl <;> rcases BitVec.eq_zero_or_eq_one sg' with rfl | rfl <;>
    simp only [signedUnits_zero, signedUnits_one] <;> omega

theorem val16_le_iff_key_le {ha hb : Half} (hna : isNaN16 ha = false) (hnb : isNaN16 hb = false) :
    (val16 ha).le (val16 hb) = true ↔ key ha ≤ key hb := by
  rw [val16_eq_signedValue hna, val16_eq_signedValue hnb,
    signedValue_le_iff (by decide) (by decide) (units16_le hna) (units16_le hnb), units16_eq_halfUnits, units16_eq_halfUnits,
    key_eq_signedUnits, key_eq_signedUnits]
  exact signedUnits_le_iff_of_strictMono halfUnits_strictMono rfl _ _ _ _

/-- Two values are the same exactly when each is at most the other; neither holds of no number. -/
theorem Value.same_iff_le_and_le (u v : Value) : u.same v = true ↔ u.le v = true ∧ v.le u = true := by
  match u, v with
  | .num p, .num q => rw [Value.num_le_num, Value.num_le_num, Value.same, decide_eq_true_eq, le_antisymm_iff]
  | .num p, .inf n => simp [Value.same, Value.num_le_inf, Value.inf_le_num]
  | .inf n, .num q => simp [Value.same, Value.num_le_inf, Value.inf_le_num]
  | .inf m, .inf n => cases m <;> cases n <;> decide
  | .nan, v => cases v <;> simp [Value.same, Value.le, Value.lt]
  | .num p, .nan => simp [Value.same, Value.le, Value.lt]
  | .inf m, .nan => simp [Value.same, Value.le, Value.lt]

/-- The order of values is total: off the words without a value, less is the negation of at least. -/
theorem Value.lt_iff_not_le {u v : Value} (hu : u ≠ .nan) (hv : v ≠ .nan) : u.lt v = true ↔ ¬ v.le u = true := by
  match u, v with
  | .nan, _ => exact absurd rfl hu
  | _, .nan => exact absurd rfl hv
  | .num p, .num q => rw [Value.num_le_num, Value.lt, decide_eq_true_eq, not_le]
  | .num p, .inf n => simp [Value.lt, Value.inf_le_num]
  | .inf n, .num q => simp [Value.lt, Value.num_le_inf]
  | .inf m, .inf n => cases m <;> cases n <;> decide

theorem val16_ne_nan {h : Half} (hn : isNaN16 h = false) : val16 h ≠ .nan := by
  rw [val16_eq_signedValue hn, signedValue]
  split <;> exact Value.noConfusion

theorem val16_lt_iff_key_lt {ha hb : Half} (hna : isNaN16 ha = false) (hnb : isNaN16 hb = false) :
    (val16 ha).lt (val16 hb) = true ↔ key ha < key hb := by
  rw [Value.lt_iff_not_le (val16_ne_nan hna) (val16_ne_nan hnb), val16_le_iff_key_le hnb hna, not_le]

theorem val16_same_iff_key_eq {ha hb : Half} (hna : isNaN16 ha = false) (hnb : isNaN16 hb = false) :
    (val16 ha).same (val16 hb) = true ↔ key ha = key hb := by
  rw [Value.same_iff_le_and_le, val16_le_iff_key_le hna hnb, val16_le_iff_key_le hnb hna, le_antisymm_iff]

/-- Settles O47: values are ordered as signed units, signed units as signed magnitudes, which are the keys. -/
theorem keyOrdersHalvesByValue : Obligations.KeyOrdersHalvesByValue :=
  ⟨fun _ _ hna hnb => ⟨val16_lt_iff_key_lt hna hnb, val16_same_iff_key_eq hna hnb⟩, fun _ => key_bounds,
    by decide, by decide, by decide, by decide⟩

end Sys2Proof.Machine
end

section
/-! The outcome of a comparison by the keys (41_comparator R123), and every predicate as a function of that outcome. -/

namespace Sys2Proof.Machine

theorem compareHalf_of_nan {ha hb : Half} (h : isNaN16 ha ∨ isNaN16 hb) : compareHalf ha hb = .unordered :=
  if_pos (Bool.or_eq_true_iff.mpr h)

theorem equalHalf_of_nan {ha hb : Half} (h : isNaN16 ha ∨ isNaN16 hb) : equalHalf ha hb = false :=
  if_pos (Bool.or_eq_true_iff.mpr h)

/-- Off the NaNs the outcome is the three-way comparison of the keys. -/
theorem compareHalf_of_not_nan {ha hb : Half} (hna : isNaN16 ha = false) (hnb : isNaN16 hb = false) :
    compareHalf ha hb = if key ha < key hb then .less else if key ha = key hb then .equal else .greater := by
  simp [compareHalf, hna, hnb]

theorem compareHalf_eq_less_iff {ha hb : Half} (hna : isNaN16 ha = false) (hnb : isNaN16 hb = false) :
    compareHalf ha hb = .less ↔ key ha < key hb := by
  rw [compareHalf_of_not_nan hna hnb]
  split_ifs <;> simp <;> omega

theorem compareHalf_eq_equal_iff {ha hb : Half} (hna : isNaN16 ha = false) (hnb : isNaN16 hb = false) :
    compareHalf ha hb = .equal ↔ key ha = key hb := by
  rw [compareHalf_of_not_nan hna hnb]
  split_ifs <;> simp <;> omega

theorem compareHalf_eq_greater_iff {ha hb : Half} (hna : isNaN16 ha = false) (hnb : isNaN16 hb = false) :
    compareHalf ha hb = .greater ↔ key hb < key ha := by
  rw [compareHalf_of_not_nan hna hnb]
  split_ifs <;> simp <;> omega

theorem isZero16_iff_key (h : Half) : isZero16 h = true ↔ key h = 0 := by
  rw [isZero16, decide_eq_true_eq, ← Int.natAbs_eq_zero, key_natAbs, ← BitVec.toNat_inj]
  rfl

/-- Two words have one key exactly when they are the same word or both zeros (41_comparator R126). -/
theorem key_eq_iff (ha hb : Half) : key ha = key hb ↔ (isZero16 ha = true ∧ isZero16 hb = true) ∨ ha = hb := by
  rw [isZero16_iff_key, isZero16_iff_key]
  refine ⟨fun heq => ?_, ?_⟩
  · by_cases h0 : key ha = 0
    · exact .inl ⟨h0, heq ▸ h0⟩
    · have hmag : (mag16 ha).toNat = (mag16 hb).toNat := by rw [← key_natAbs, heq, key_natAbs]
      refine .inr (half_ext ?_ (BitVec.eq_of_toNat_eq hmag))
      rw [key_eq_signedUnits] at h0
      rw [key_eq_signedUnits, key_eq_signedUnits, ← hmag] at heq
      rcases BitVec.eq_zero_or_eq_one (sign16 ha) with hs | hs <;> rcases BitVec.eq_zero_or_eq_one (sign16 hb) with hs' | hs' <;>
        simp only [hs, hs', signedUnits_zero, signedUnits_one] at h0 heq ⊢ <;> omega
  · rintro (⟨h0, h0'⟩ | rfl)
    · rw [h0, h0']
    · rfl

/-- Off the NaNs, FEQ is 1 exactly for two zeros and for equal words (41_comparator R125). -/
theorem equalHalf_iff {ha hb : Half} (hna : isNaN16 ha = false) (hnb : isNaN16 hb = false) :
    equalHalf ha hb = true ↔ (isZero16 ha = true ∧ isZero16 hb = true) ∨ ha = hb := by
  simp only [equalHalf, hna, hnb, Bool.or_self, Bool.false_eq_true, if_false]
  split_ifs with hz
  · exact iff_of_true rfl (.inl (Bool.and_eq_true_iff.mp hz))
  · rw [Bool.and_eq_true_iff] at hz
    simp [hz]

/-- FEQ is the comparison's outcome "equal", with a NaN too (41_comparator R126). -/
theorem equalHalf_eq (ha hb : Half) : equalHalf ha hb = decide (compareHalf ha hb = .equal) := by
  by_cases hn : isNaN16 ha ∨ isNaN16 hb
  · rw [equalHalf_of_nan hn, compareHalf_of_nan hn]
    rfl
  · obtain ⟨hna, hnb⟩ : isNaN16 ha = false ∧ isNaN16 hb = false := by simpa using hn
    rw [Bool.eq_iff_iff, decide_eq_true_eq, equalHalf_iff hna hnb, compareHalf_eq_equal_iff hna hnb, key_eq_iff]

theorem equalHalf_eq_key {a b : Half} (hna : isNaN16 a = false) (hnb : isNaN16 b = false) :
    equalHalf a b = decide (key a = key b) :=
  (equalHalf_eq a b).trans (decide_eq_decide.mpr (compareHalf_eq_equal_iff hna hnb))

theorem lessHalf_eq_key {a b : Half} (hna : isNaN16 a = false) (hnb : isNaN16 b = false) :
    lessHalf a b = decide (key a < key b) :=
  decide_eq_decide.mpr (compareHalf_eq_less_iff hna hnb)

theorem greaterHalf_eq_key {a b : Half} (hna : isNaN16 a = false) (hnb : isNaN16 b = false) :
    greaterHalf a b = decide (key b < key a) :=
  decide_eq_decide.mpr (compareHalf_eq_greater_iff hna hnb)

theorem lessEqualHalf_eq_key {a b : Half} (hna : isNaN16 a = false) (hnb : isNaN16 b = false) :
    lessEqualHalf a b = decide (key a ≤ key b) := by
  rw [lessEqualHalf, decide_eq_decide, compareHalf_eq_less_iff hna hnb, compareHalf_eq_equal_iff hna hnb, le_iff_lt_or_eq]

theorem greaterEqualHalf_eq_key {a b : Half} (hna : isNaN16 a = false) (hnb : isNaN16 b = false) :
    greaterEqualHalf a b = decide (key b ≤ key a) := by
  rw [greaterEqualHalf, decide_eq_decide, compareHalf_eq_greater_iff hna hnb, compareHalf_eq_equal_iff hna hnb,
    le_iff_lt_or_eq, eq_comm]

/-- The four codes are distinct (41_comparator R122). -/
theorem CmpOutcome.code_inj {o o' : CmpOutcome} : o.code = o'.code ↔ o = o' := by
  cases o <;> cases o' <;> decide

theorem bitOnY_eq (p : Bool) : bitOnY p = if p then 1#32 else 0#32 := by cases p <;> rfl

theorem bitOnY_not (p : Bool) : bitOnY (!p) = if p then 0#32 else 1#32 := by cases p <;> rfl

theorem bitOnY_eq_one_iff (p : Bool) : bitOnY p = 1#32 ↔ p = true := by cases p <;> decide

theorem codeOnY_eq_one_iff (o : CmpOutcome) : codeOnY o = 1#32 ↔ o = .equal := by cases o <;> decide

/-- The bit of a test for one outcome, as a test of the code (41_comparator R128, R129). -/
theorem bitOnY_outcome (o o' : CmpOutcome) : bitOnY (decide (o = o')) = if o.code = o'.code then 1#32 else 0#32 := by
  simp only [bitOnY_eq, decide_eq_true_eq, CmpOutcome.code_inj]

/-- The bit of a test for two outcomes, as a test of the code (41_comparator R130, R131). -/
theorem bitOnY_outcome_or (o o₁ o₂ : CmpOutcome) :
    bitOnY (decide (o = o₁ ∨ o = o₂)) = if o.code = o₁.code ∨ o.code = o₂.code then 1#32 else 0#32 := by
  simp only [bitOnY_eq, decide_eq_true_eq, CmpOutcome.code_inj]

theorem bitOnY_lessHalf (ha hb : Half) :
    bitOnY (lessHalf ha hb) = if (compareHalf ha hb).code = 0b00#2 then 1#32 else 0#32 :=
  bitOnY_outcome _ .less

theorem bitOnY_greaterHalf (ha hb : Half) :
    bitOnY (greaterHalf ha hb) = if (compareHalf ha hb).code = 0b10#2 then 1#32 else 0#32 :=
  bitOnY_outcome _ .greater

theorem bitOnY_lessEqualHalf (ha hb : Half) :
    bitOnY (lessEqualHalf ha hb) =
      if (compareHalf ha hb).code = 0b00#2 ∨ (compareHalf ha hb).code = 0b01#2 then 1#32 else 0#32 :=
  bitOnY_outcome_or _ .less .equal

theorem bitOnY_greaterEqualHalf (ha hb : Half) :
    bitOnY (greaterEqualHalf ha hb) =
      if (compareHalf ha hb).code = 0b10#2 ∨ (compareHalf ha hb).code = 0b01#2 then 1#32 else 0#32 :=
  bitOnY_outcome_or _ .greater .equal

/-- A comparator command runs its instruction on `a[15:0]` and `b`, whatever the other bits of `a` are (41_comparator R120). -/
theorem step_comparator {c : Command} {ha hb : Half} {i : Half → Half → Instr} (hca : c.a.extractLsb' 0 16 = ha)
    (hcb : c.b = hb) (hd : decode c = .ok (i (halfInA c) (halfInB c))) (s : State) :
    step (s.presentNow c) = .next { s with y := some (resultOf (i ha hb)) } := by
  subst hca hcb
  exact step_presentNow_of_decode_ok hd s

end Sys2Proof.Machine
end

section
/-! The comparator's instructions on `y` (41_comparator R122 to R133). -/

namespace Sys2Proof.Machine

/-- Settles O49: widening keeps NaNs and values, and the outcome is by the keys, which are ordered as the values. -/
theorem compareAgreesWithTheWidenedValues : Obligations.CompareAgreesWithTheWidenedValues := by
  intro ha hb s
  simp only [isNaN32_widen, exec_eq, resultOf]
  refine ⟨fun hn => by rw [compareHalf_of_nan hn]; rfl, fun hna hnb => ?_⟩
  rw [val32_widen hna, val32_widen hnb, val16_lt_iff_key_lt hna hnb, val16_same_iff_key_eq hna hnb, val16_lt_iff_key_lt hnb hna]
  refine ⟨fun hlt => ?_, fun heq => ?_, fun hgt => ?_, lt_trichotomy _ _⟩
  · rw [(compareHalf_eq_less_iff hna hnb).mpr hlt]
    rfl
  · rw [(compareHalf_eq_equal_iff hna hnb).mpr heq]
    rfl
  · rw [(compareHalf_eq_greater_iff hna hnb).mpr hgt]
    rfl

/-- Settles O51: both results are 1 exactly for the outcome "equal". -/
theorem equalExactlyWhenCompareGivesEqual : Obligations.EqualExactlyWhenCompareGivesEqual := by
  intro ha hb s
  have hiff : bitOnY (equalHalf ha hb) = 1#32 ↔ codeOnY (compareHalf ha hb) = 1#32 := by
    rw [bitOnY_eq_one_iff, codeOnY_eq_one_iff, equalHalf_eq, decide_eq_true_eq]
  simpa [exec_eq, resultOf] using hiff

/-- Settles O53: the outcome is "unordered", and every predicate is a function of the outcome. -/
theorem nanIsUnorderedWithEverything : Obligations.NaNIsUnorderedWithEverything := by
  intro ha hb s hn
  simp only [exec_eq, resultOf, notEqualHalf, equalHalf_of_nan hn, lessHalf, greaterHalf, lessEqualHalf, greaterEqualHalf,
    compareHalf_of_nan hn]
  exact ⟨rfl, rfl, rfl, rfl, rfl, rfl, rfl⟩

/-- Settles O54: off the NaNs each predicate is an order relation of the integer keys; with a NaN all four orderings are 0. -/
theorem comparatorIsATotalOrderOffNaN : Obligations.ComparatorIsATotalOrderOffNaN := by
  refine ⟨fun a b c hna hnb hnc => ?_, fun a b hn => ?_⟩
  · simp only [notEqualHalf, equalHalf_eq_key, lessHalf_eq_key, greaterHalf_eq_key, lessEqualHalf_eq_key,
      greaterEqualHalf_eq_key, hna, hnb, hnc, Bool.not_eq_true', decide_eq_true_eq, decide_eq_false_iff_not]
    refine ⟨by omega, trivial, trivial, ?_, ?_, lt_trans, le_trans, ?_, ?_, ?_⟩
    · rw [decide_eq_decide, eq_comm]
    · rw [Bool.not_inj_iff, decide_eq_decide, eq_comm]
    · rw [← Bool.decide_or, decide_eq_decide, le_iff_lt_or_eq]
    · rw [← decide_not, decide_eq_decide, not_lt]
    · rw [← decide_not, decide_eq_decide, not_lt]
  · simp only [lessEqualHalf, greaterEqualHalf, lessHalf, greaterHalf, compareHalf_of_nan hn]
    decide

/-- Settles O48: the code of each outcome, and the outcome of each case. -/
theorem compareGivesTheCodeOfTheOutcome : Obligations.CompareGivesTheCodeOfTheOutcome := by
  intro ha hb s
  refine ⟨(compareHalf ha hb).code, exec_eq _ s,
    fun c hop hca hcb => step_comparator hca hcb (decode_eq_cmp (congrArg BitVec.toNat hop)) s, fun hn => ?_,
    fun hna hnb => ⟨fun hlt => ?_, fun heq => ?_, fun hgt => ?_⟩⟩
  · rw [compareHalf_of_nan hn, CmpOutcome.code]
  · rw [(compareHalf_eq_less_iff hna hnb).mpr hlt, CmpOutcome.code]
  · rw [(compareHalf_eq_equal_iff hna hnb).mpr heq, CmpOutcome.code]
  · rw [(compareHalf_eq_greater_iff hna hnb).mpr hgt, CmpOutcome.code]

/-- Settles O50: FEQ's bit is `equalHalf`, FNE's its negation, and off the NaNs it is 1 exactly for zeros and equal words. -/
theorem equalityPredicatesCompareBitPatterns : Obligations.EqualityPredicatesCompareBitPatterns := by
  intro ha hb s
  refine ⟨equalHalf ha hb, ?_⟩
  rw [← bitOnY_eq, ← bitOnY_not]
  refine ⟨exec_eq _ s, exec_eq _ s,
    fun c hca hcb => ⟨fun hop => step_comparator hca hcb (decode_eq_feq (congrArg BitVec.toNat hop)) s,
      fun hop => step_comparator hca hcb (decode_eq_fne (congrArg BitVec.toNat hop)) s⟩,
    equalHalf_of_nan, fun hna hnb => ?_⟩
  have hiff := equalHalf_iff hna hnb
  refine ⟨fun hza hzb => hiff.mpr (.inl ⟨hza, hzb⟩), fun heq => hiff.mpr (.inr heq), fun hne hz => ?_⟩
  rw [← Bool.not_eq_true, hiff]
  rintro (⟨hza, hzb⟩ | heq)
  · simp [hza, hzb] at hz
  · exact hne heq

/-- Settles O52: each predicate tests the outcome of CMP, for the instruction and for the command. -/
theorem orderingPredicatesFollowTheCompareCode : Obligations.OrderingPredicatesFollowTheCompareCode := by
  intro ha hb s
  refine ⟨(compareHalf ha hb).code, ?_⟩
  rw [← bitOnY_lessHalf, ← bitOnY_greaterHalf, ← bitOnY_lessEqualHalf, ← bitOnY_greaterEqualHalf]
  exact ⟨exec_eq _ s, exec_eq _ s, exec_eq _ s, exec_eq _ s, exec_eq _ s, fun c hca hcb =>
    ⟨fun hop => step_comparator hca hcb (decode_eq_flt (congrArg BitVec.toNat hop)) s,
      fun hop => step_comparator hca hcb (decode_eq_fgt (congrArg BitVec.toNat hop)) s,
      fun hop => step_comparator hca hcb (decode_eq_fle (congrArg BitVec.toNat hop)) s,
      fun hop => step_comparator hca hcb (decode_eq_fge (congrArg BitVec.toNat hop)) s⟩⟩

end Sys2Proof.Machine
end

section
/-! All that an event can do, said once, and what every step therefore keeps (70_reset_and_hazards R178, 10_state R31). -/

namespace Sys2Proof.Machine

/-- The state an event leaves when it completes, and what it needs for that. -/
inductive Effect (s : State) : Event → State → Prop
  | accepted (c : Command) : Effect s (.issue c) (s.accept c)
  | completed {e : Event} {c : Command} {cs : List Command} {v : BitVec 32} (due : e = .deliver ∨ e = .await)
      (oldest : s.inFlight = c :: cs) (result : unitFunction c.toWord = some v) :
      Effect s e (State.writeY { s with inFlight := cs } v)
  | nothingDue (idle : s.inFlight = []) : Effect s .deliver s
  | cleared {e : Event} (lost : e = .reset ∨ e = .powerCycle) : Effect s e s.clear
  | read {v : BitVec 32} (held : s.y = some v) : Effect s .readY { s with reads := s.reads ++ [v] }
  | sampled {v : BitVec 32} (held : s.y = some v) :
      Effect s .sampleChanging
        { s with reads := s.reads ++ [Config.freeSample s.freeCount], freeCount := s.freeCount + 1 }

/-- The one inversion of an event that completes. -/
theorem handle_effect {e : Event} {s t : State} (h : handle e s = .next t) : Effect s e t := by
  have due (he : e = .deliver ∨ e = .await) {c : Command} {cs : List Command} (hf : s.inFlight = c :: cs) : Effect s e t := by
    obtain ⟨v, hv, rfl⟩ := runCommand_next ((handle_due he hf).symm.trans h)
    exact .completed he hf hv
  cases e with
  | issue c => cases h; exact .accepted c
  | reset => cases h; exact .cleared (.inl rfl)
  | powerCycle => cases h; exact .cleared (.inr rfl)
  | deliver =>
    cases hf : s.inFlight with
    | nil => rw [handle, deliverOldest_nil hf] at h; cases h; exact .nothingDue hf
    | cons c cs => exact due (.inl rfl) hf
  | await =>
    cases hf : s.inFlight with
    | nil => rw [handle, awaitResult_nil hf] at h; cases h
    | cons c cs => exact due (.inr rfl) hf
  | readY =>
    cases hy : s.y with
    | none => rw [handle, readOutput_none hy] at h; cases h
    | some v => rw [handle, readOutput_some hy] at h; cases h; exact .read hy
  | sampleChanging =>
    cases hy : s.y with
    | none => rw [handle, sampleOutput_none hy] at h; cases h
    | some v => rw [handle, sampleOutput_some hy] at h; cases h; exact .sampled hy

/-- All that a step can do: nothing when nothing is to come, else the effect of the next event. -/
theorem step_effect {s t : State} (h : step s = .next t) :
    (s.agenda = [] ∧ t = s) ∨ ∃ e rest, s.agenda = e :: rest ∧ Effect { s with agenda := rest } e t := by
  cases ha : s.agenda with
  | nil => rw [step_nil ha] at h; cases h; exact .inl ⟨rfl, rfl⟩
  | cons e rest => exact .inr ⟨e, rest, rfl, handle_effect ((step_cons ha).symm.trans h)⟩

theorem State.legal_iff (s : State) :
    s.legal = true ↔ (∀ c ∈ s.inFlight, c.wf = true) ∧ ∀ e ∈ s.agenda, e.wf = true := by
  simp [State.legal]

/-- An event of a dutiful requester keeps the commands in flight and to come legal. -/
theorem Effect.keeps_legal {s t : State} {e : Event} (h : Effect s e t) (he : e.wf = true) (hl : s.legal = true) :
    t.legal = true := by
  obtain ⟨hflight, hagenda⟩ := s.legal_iff.mp hl
  refine t.legal_iff.mpr ?_
  cases h with
  | accepted c =>
    refine ⟨fun d hd => ?_, hagenda⟩
    rcases List.mem_append.mp hd with hold | hnew
    · exact hflight d hold
    · exact List.mem_singleton.mp hnew ▸ he
  | completed _ oldest _ => exact ⟨fun d hd => hflight d (oldest ▸ List.mem_cons_of_mem _ hd), hagenda⟩
  | cleared _ => exact ⟨by simp, hagenda⟩
  | nothingDue _ | read _ | sampled _ => exact ⟨hflight, hagenda⟩

/-- Settles O26: what is accepted was a legal event to come, and nothing else joins the commands. -/
theorem stepKeepsCommandsLegal : Obligations.StepKeepsCommandsLegal := by
  intro s t hl h
  rcases step_effect h with ⟨-, rfl⟩ | ⟨e, rest, ha, heff⟩
  · exact hl
  · obtain ⟨hflight, hagenda⟩ := s.legal_iff.mp hl
    rw [ha, List.forall_mem_cons] at hagenda
    exact heff.keeps_legal hagenda.1 ((State.legal_iff _).mpr ⟨hflight, hagenda.2⟩)

/-- An event keeps the value on `y` the result of some command. -/
theorem Effect.keeps_yIsAResult {s t : State} {e : Event} (h : Effect s e t) (hy : s.yIsAResult) : t.yIsAResult := by
  cases h with
  | completed _ _ result => exact fun v hv => ⟨_, result.trans hv⟩
  | cleared _ => exact fun v hv => nomatch hv
  | accepted _ | nothingDue _ | read _ | sampled _ => exact hy

/-- Settles O27: the only new value an event puts on `y` is the result of the command that was due. -/
theorem stepKeepsTheOutputAResult : Obligations.StepKeepsTheOutputAResult := by
  intro s t hy h
  rcases step_effect h with ⟨-, rfl⟩ | ⟨e, rest, -, heff⟩
  · exact hy
  · exact heff.keeps_yIsAResult hy

/-- Settles O28: at reset there is no command and no value on `y`. -/
theorem resetMeetsTheInvariants : Obligations.ResetMeetsTheInvariants := ⟨rfl, fun _ hv => nomatch hv⟩

/-- With only legal commands in flight an event completes, unless it reads a `y` without a value or waits with nothing in
flight. -/
theorem handle_of_wf {s : State} (hw : ∀ c ∈ s.inFlight, c.wf = true) (e : Event) :
    (∃ t, handle e s = .next t) ∨
    (s.y = none ∧ (e = .readY ∨ e = .sampleChanging) ∧ handle e s = .fault .readOfUndefinedY) ∨
    (s.inFlight = [] ∧ e = .await ∧ handle e s = .fault .awaitedResultNeverComes) := by
  have due (he : e = .deliver ∨ e = .await) {c : Command} {cs : List Command} (hf : s.inFlight = c :: cs) :
      ∃ t, handle e s = .next t := by
    obtain ⟨v, -, hrun⟩ := runCommand_of_wf (hw c (by simp [hf]))
    exact ⟨_, (handle_due he hf).trans (hrun _)⟩
  cases e with
  | issue c => exact .inl ⟨_, rfl⟩
  | reset => exact .inl ⟨_, rfl⟩
  | powerCycle => exact .inl ⟨_, rfl⟩
  | deliver =>
    cases hf : s.inFlight with
    | nil => exact .inl ⟨s, deliverOldest_nil hf⟩
    | cons c cs => exact .inl (due (.inl rfl) hf)
  | await =>
    cases hf : s.inFlight with
    | nil => exact .inr (.inr ⟨rfl, rfl, awaitResult_nil hf⟩)
    | cons c cs => exact .inl (due (.inr rfl) hf)
  | readY =>
    cases hy : s.y with
    | none => exact .inr (.inl ⟨rfl, .inl rfl, readOutput_none hy⟩)
    | some v => exact .inl ⟨_, readOutput_some hy⟩
  | sampleChanging =>
    cases hy : s.y with
    | none => exact .inr (.inl ⟨rfl, .inr rfl, sampleOutput_none hy⟩)
    | some v => exact .inl ⟨_, sampleOutput_some hy⟩

/-- A step from a legal state is not refused, and completes when the requester's next action is due. -/
theorem step_of_legal {s : State} (hl : s.legal = true) :
    (∃ t, step s = .next t) ∨ (s.nextIsDue = false ∧ ∃ f, step s = .fault f) := by
  cases ha : s.agenda with
  | nil => exact .inl ⟨s, step_nil ha⟩
  | cons e rest =>
    rw [step_cons ha]
    rcases handle_of_wf (s := { s with agenda := rest }) (s.legal_iff.mp hl).1 e with
      hnext | ⟨(hy : s.y = none), he, hfault⟩ | ⟨(hf : s.inFlight = []), rfl, hfault⟩
    · exact .inl hnext
    · refine .inr ⟨?_, _, hfault⟩
      rcases he with rfl | rfl <;> simp [State.nextIsDue, ha, hy]
    · exact .inr ⟨by simp [State.nextIsDue, ha, hf], _, hfault⟩

/-- A run from a legal state is not refused: its first step is not, and leaves a legal state. -/
theorem run_ne_refused {s : State} (hl : s.legal = true) (n : Nat) (r : Refusal) :
    Host.Core.run Sys2Proof.core n s ≠ .refused r := by
  induction n generalizing s with
  | zero => exact nofun
  | succ n ih =>
    have hcore : Sys2Proof.core.step s = step s := rfl
    rcases step_of_legal hl with ⟨t, ht⟩ | ⟨-, f, hf⟩
    · simp only [Host.Core.run, hcore, ht]
      exact ih (stepKeepsCommandsLegal s t hl ht)
    · simp only [Host.Core.run, hcore, hf]
      exact nofun

/-- Settles O29: legality is kept by every step, and a step from a legal state stops only where an action is not due. -/
theorem dutifulRequesterIsNeverRefused : Obligations.DutifulRequesterIsNeverRefused := by
  refine ⟨fun s n r hl => run_ne_refused hl n r, fun s hl hdue => ?_⟩
  rcases step_of_legal hl with hnext | ⟨hnot, -⟩
  · exact hnext
  · simp [hdue] at hnot

end Sys2Proof.Machine
end

section
/-! The unit cycle by cycle: one acceptance and one result at most, at the latency's distance (70_reset_and_hazards R175). -/

namespace Sys2Proof.Machine

/-- The commands accepted in the cycles `m` to `n - 1`, in order. -/
def acceptedFrom (offers : List (Option Command)) (m n : Nat) : List Command :=
  (List.range' m (n - m)).filterMap (offeredAt offers)

/-- One more cycle at the late end. -/
theorem acceptedFrom_succ {m n : Nat} (offers : List (Option Command)) (h : m ≤ n) :
    acceptedFrom offers m (n + 1) = acceptedFrom offers m n ++ (offeredAt offers n).toList := by
  have hlast : m + (n - m) = n := by omega
  rw [acceptedFrom, Nat.succ_sub h, List.range'_1_concat, List.filterMap_append, hlast, acceptedFrom]
  cases hn : offeredAt offers n <;> simp [hn]

/-- The cycle at the early end apart. -/
theorem acceptedFrom_of_lt {m n : Nat} (offers : List (Option Command)) (h : m < n) :
    acceptedFrom offers m n = (offeredAt offers m).toList ++ acceptedFrom offers (m + 1) n := by
  obtain ⟨k, rfl⟩ : ∃ k, n = m + 1 + k := ⟨n - (m + 1), by omega⟩
  have hlen : m + 1 + k - m = k + 1 := by omega
  rw [acceptedFrom, hlen, List.range'_succ, List.filterMap_cons, acceptedFrom, Nat.add_sub_cancel_left]
  cases offeredAt offers m <;> rfl

/-- What `y` holds once the results of the cycles before `m` are there: the latest of them, `y₀` if there is none. -/
def outputAfter (offers : List (Option Command)) (y₀ : Option (BitVec 32)) (m : Nat) : Option (BitVec 32) :=
  (lastOffered offers m).elim y₀ fun c => unitFunction c.toWord

theorem outputAfter_succ (offers : List (Option Command)) (y₀ : Option (BitVec 32)) (m : Nat) :
    outputAfter offers y₀ (m + 1) =
      (offeredAt offers m).elim (outputAfter offers y₀ m) fun c => unitFunction c.toWord := by
  rw [outputAfter, lastOffered]
  cases offeredAt offers m <;> rfl

theorem offeredAt_wf {offers : List (Option Command)} (hw : ∀ c, some c ∈ offers → c.wf = true) {m : Nat} {c : Command}
    (h : offeredAt offers m = some c) : c.wf = true :=
  hw c (List.mem_of_getElem? (Option.join_eq_some_iff.mp h))

/-- A cycle accepts the command offered in it, and brings the result of the command offered `p` cycles earlier. -/
theorem cycleEvents_eq (p : Nat) (offers : List (Option Command)) (t : Nat) :
    cycleEvents p offers t = (offeredAt offers t).toList.map Event.issue ++
      if p ≤ t then (offeredAt offers (t - p)).toList.map fun _ => .deliver else [] := by
  rw [cycleEvents]
  congr 1
  · cases offeredAt offers t <;> rfl
  · by_cases hp : p ≤ t
    · cases offeredAt offers (t - p) <;> simp [hp]
    · simp [hp]

theorem runCommand_of_unitFunction {c : Command} {v : BitVec 32} (hv : unitFunction c.toWord = some v) (s : State) :
    runCommand c s = .next (s.writeY v) := step_presentNow_of_unitFunction hv s

/-- The result of the oldest command in flight comes. -/
theorem runAgenda_deliver {s : State} {c : Command} {cs : List Command} {v : BitVec 32} (hf : s.inFlight = c :: cs)
    (hv : unitFunction c.toWord = some v) :
    runAgenda s [.deliver] = .next { s with y := some v, inFlight := cs, agenda := [] } := by
  have hrun : handle .deliver { s with agenda := [] } = .next (State.writeY { s with inFlight := cs, agenda := [] } v) :=
    (handle_due (.inl rfl) (s := { s with agenda := [] }) hf).trans (runCommand_of_unitFunction hv _)
  exact runAgenda_cons_next hrun

/-- The result of the oldest command comes, if there is one that is due. -/
theorem runAgenda_deliver_toList {s : State} {o : Option Command} {cs : List Command} (hw : ∀ c, o = some c → c.wf = true)
    (hf : s.inFlight = o.toList ++ cs) :
    ∃ t, runAgenda s (o.toList.map fun _ => .deliver) = .next t ∧
      t.y = (o.elim s.y fun c => unitFunction c.toWord) ∧ t.inFlight = cs := by
  cases o with
  | none => exact ⟨_, rfl, rfl, hf⟩
  | some c =>
    obtain ⟨v, hv, -⟩ := runCommand_of_wf (hw c rfl)
    exact ⟨_, runAgenda_deliver hf hv, hv.symm, rfl⟩

/-- One cycle moves both ends of the commands in flight on: the late end by the command accepted, the early end by the one whose
result comes. -/
theorem runAgenda_cycleEvents {offers : List (Option Command)} (hw : ∀ c, some c ∈ offers → c.wf = true) (p n : Nat)
    {y₀ : Option (BitVec 32)} {s : State} (hy : s.y = outputAfter offers y₀ (n - p))
    (hf : s.inFlight = acceptedFrom offers (n - p) n) :
    ∃ t, runAgenda s (cycleEvents p offers n) = .next t ∧ t.y = outputAfter offers y₀ (n + 1 - p) ∧
      t.inFlight = acceptedFrom offers (n + 1 - p) (n + 1) := by
  have hissue := runAgenda_map_issue s (offeredAt offers n).toList
  rw [hf, ← acceptedFrom_succ offers (Nat.sub_le n p)] at hissue
  rw [cycleEvents_eq, runAgenda_append_next hissue]
  by_cases hp : p ≤ n
  · rw [if_pos hp, Nat.succ_sub hp, outputAfter_succ, ← hy]
    exact runAgenda_deliver_toList (fun c hc => offeredAt_wf hw hc) (acceptedFrom_of_lt offers (by omega))
  · have hbefore : n - p = 0 ∧ n + 1 - p = 0 := by omega
    rw [hbefore.1] at hy ⊢
    rw [if_neg hp, hbefore.2]
    exact ⟨_, rfl, hy, rfl⟩

/-- After `n` cycles the results of the cycles before `n - p` are there, and the commands accepted since are in flight. -/
theorem runAgenda_timedAgenda {offers : List (Option Command)} (hw : ∀ c, some c ∈ offers → c.wf = true) (p n : Nat)
    {s : State} (hf : s.inFlight = []) :
    ∃ t, runAgenda s (timedAgenda p offers n) = .next t ∧ t.y = outputAfter offers s.y (n - p) ∧
      t.inFlight = acceptedFrom offers (n - p) n := by
  induction n with
  | zero => exact ⟨_, rfl, by simp [outputAfter, lastOffered], by simpa [acceptedFrom] using hf⟩
  | succ n ih =>
    obtain ⟨u, hu, hy, hflight⟩ := ih
    rw [timedAgenda, runAgenda_append_next hu]
    exact runAgenda_cycleEvents hw p n hy hflight

/-- Settles O25, by induction on the number of cycles. -/
theorem resultAppearsAfterTheLatency : Obligations.ResultAppearsAfterTheLatency := by
  intro p n offers s hf hw
  obtain ⟨t, hrun, hy, hflight⟩ := runAgenda_timedAgenda hw p n hf
  refine ⟨t, hrun, hy.trans ?_, hflight⟩
  rw [outputAfter]
  cases lastOffered offers (n - p) <;> rfl

end Sys2Proof.Machine
end

section
/-! Encoding and decoding undo each other, up to the bits an operation does not read (30_encoding R63, R64, R71). -/

namespace Sys2Proof

open Sys2Proof.Machine

@[simp] theorem decodeWord_encodeWord (i : Instr) : decodeWord (encodeWord i) = decode (encode i) :=
  decodeWord_toWord (encode i)

/-- A Half placed on port `a` is read back from it. -/
@[simp] theorem extractLsb'_setWidth_half (h : Half) : (h.setWidth 32).extractLsb' 0 16 = h := by
  apply BitVec.eq_of_getLsbD_eq
  intro i hi
  have h32 : i < 32 := by omega
  simp [hi, h32]

/-- The decoder reads an instruction back from its command. -/
theorem decode_encode (i : Instr) : decode (encode i) = .ok i := by
  cases i with
  | h2s h => rw [decode_eq_h2s rfl, halfInA, encode, extractLsb'_setWidth_half]
  | s2h x => rw [decode_eq_s2h rfl, singleInA, encode]
  | cmp ha hb => rw [decode_eq_cmp rfl, halfInA, halfInB, encode, extractLsb'_setWidth_half]
  | feq ha hb => rw [decode_eq_feq rfl, halfInA, halfInB, encode, extractLsb'_setWidth_half]
  | fne ha hb => rw [decode_eq_fne rfl, halfInA, halfInB, encode, extractLsb'_setWidth_half]
  | flt ha hb => rw [decode_eq_flt rfl, halfInA, halfInB, encode, extractLsb'_setWidth_half]
  | fgt ha hb => rw [decode_eq_fgt rfl, halfInA, halfInB, encode, extractLsb'_setWidth_half]
  | fle ha hb => rw [decode_eq_fle rfl, halfInA, halfInB, encode, extractLsb'_setWidth_half]
  | fge ha hb => rw [decode_eq_fge rfl, halfInA, halfInB, encode, extractLsb'_setWidth_half]

/-- A number is read as an instruction exactly when it is a command word that decodes to it. -/
theorem decodeTableWord_eq_some_iff {n w : Nat} {i : Instr} :
    decodeTableWord n w = some i ↔ w < 2 ^ 52 ∧ decodeWord (BitVec.ofNat 52 w) = .ok i := by
  rw [decodeTableWord]
  by_cases hw : w < 2 ^ 52
  · rw [if_pos hw]
    cases decodeWord (BitVec.ofNat 52 w) <;> simp only [hw, true_and, Option.some.injEq, Except.ok.injEq, reduceCtorEq]
  · rw [if_neg hw]
    exact ⟨nofun, fun h => absurd h.1 hw⟩

/-- Settles O7: encoding puts the op and the operands where the decoder reads them. -/
theorem decodeOfEncodeIsTheInstruction : Obligations.DecodeOfEncodeIsTheInstruction := by
  intro i _
  have hdecode : decodeWord (encodeWord i) = .ok i := (decodeWord_encodeWord i).trans (decode_encode i)
  refine ⟨hdecode, decodeTableWord_eq_some_iff.mpr ⟨(encodeWord i).isLt, ?_⟩⟩
  rw [BitVec.ofNat_toNat, BitVec.setWidth_eq, hdecode]

/-- A command word masked by `{1111, ma, mb}` is the word of the command with the masked operand ports. -/
theorem Command.toWord_eq_and {c d : Command} {m : BitVec 52} (ma : BitVec 32) (mb : BitVec 16) (hm : m = 0xF#4 ++ ma ++ mb)
    (hop : d.op = c.op) (ha : d.a = c.a &&& ma) (hb : d.b = c.b &&& mb) : d.toWord = c.toWord &&& m := by
  have hones : c.op &&& 0xF#4 = c.op := BitVec.and_allOnes
  rw [hm, Command.toWord, Command.toWord, BitVec.and_append, BitVec.and_append, hones, hop, ha, hb]

/-- Reading `a[15:0]` and placing it on port `a` again clears the upper half of the port. -/
theorem setWidth_halfInA (c : Command) : (halfInA c).setWidth 32 = c.a &&& 0x0000FFFF#32 := by
  apply BitVec.eq_of_toNat_eq
  have hmod : c.a.toNat &&& 0xFFFF = c.a.toNat % 2 ^ 16 := Nat.and_two_pow_sub_one_eq_mod c.a.toNat 16
  rw [BitVec.toNat_and, BitVec.toNat_setWidth, halfInA, BitVec.extractLsb'_toNat]
  simp only [BitVec.toNat_ofNat, Nat.reducePow, Nat.reduceMod, Nat.shiftRight_zero, hmod]
  omega

/-- A comparator command comes back with `a[31:16]` cleared. -/
theorem encode_of_decode_comparator {c : Command} {i : Instr} (hlo : 2 ≤ c.op.toNat) (h : decode c = .ok i) :
    encode i = { op := c.op, a := (halfInA c).setWidth 32, b := c.b } := by
  have hop : c.op = BitVec.ofNat 4 c.op.toNat := by simp
  simp only [decode] at h
  split at h <;> cases h
  case h_1 hn | h_2 hn => omega
  all_goals
    rename_i hn
    rw [hn] at hop
    rw [hop]
    rfl

/-- Settles O8: masking a word masks its ports, and each kind of command comes back with the ports its mask leaves. -/
theorem encodeOfDecodeClearsOnlyUnreadBits : Obligations.EncodeOfDecodeClearsOnlyUnreadBits := by
  intro w i h
  obtain ⟨c, rfl⟩ : ∃ c : Command, c.toWord = w := ⟨_, Command.toWord_ofWord w⟩
  rw [decodeWord_toWord] at h
  rw [c.toWord_op, encodeWord]
  by_cases h0 : c.op = 0
  · obtain rfl : .h2s (halfInA c) = i := Except.ok.inj ((decode_eq_h2s (by rw [h0]; rfl)).symm.trans h)
    rw [if_pos h0]
    exact Command.toWord_eq_and 0x0000FFFF#32 0x0000#16 rfl h0.symm (setWidth_halfInA c) BitVec.and_zero.symm
  by_cases h1 : c.op = 1
  · obtain rfl : .s2h (singleInA c) = i := Except.ok.inj ((decode_eq_s2h (by rw [h1]; rfl)).symm.trans h)
    rw [if_neg h0, if_pos h1]
    exact Command.toWord_eq_and 0xFFFFFFFF#32 0x0000#16 rfl h1.symm BitVec.and_allOnes.symm BitVec.and_zero.symm
  · have hlo : 2 ≤ c.op.toNat := by bv_omega
    rw [if_neg h0, if_neg h1, encode_of_decode_comparator hlo h]
    exact Command.toWord_eq_and 0x0000FFFF#32 0xFFFF#16 rfl rfl (setWidth_halfInA c) BitVec.and_allOnes.symm

/-- Settles O6: each word is written out, and the decoder is run on it. -/
theorem wordsWrittenOutDecode : Obligations.WordsWrittenOutDecode := by
  unfold Obligations.WordsWrittenOutDecode
  decide

end Sys2Proof
end

section
/-! What one event does at the head of the agenda, and short runs of events from any state (70_reset_and_hazards R171 to R178,
60_exceptions R164). -/

namespace Sys2Proof.Machine

/-- With a command in flight whose result is due or awaited, the step runs it. -/
theorem step_due {s : State} {e : Event} {rest : List Event} {c : Command} {cs : List Command}
    (he : e = .deliver ∨ e = .await) (ha : s.agenda = e :: rest) (hf : s.inFlight = c :: cs) :
    step s = runCommand c { s with agenda := rest, inFlight := cs } := by
  rw [step_cons ha, handle_due he (s := { s with agenda := rest }) hf]

/-- Settles O11: the step runs the command, and no reserved command decodes. -/
theorem reservedCommandIsRefused : Obligations.ReservedCommandIsRefused := by
  intro c cs rest e s hreserved he ha hf
  rw [step_due he ha hf, runCommand_reserved (decode_reserved hreserved)]

theorem runCommand_eq_exec {c : Command} {i : Instr} (h : decode c = .ok i) (s : State) : runCommand c s = exec i s := by
  rw [runCommand_ok h, exec_eq_writeY]

/-- Settles O14: the step runs the command, which is to execute what it decodes to. -/
theorem stepRunsTheDecodedInstruction : Obligations.StepRunsTheDecodedInstruction := by
  refine ⟨fun s e rest c cs i he ha hf hd => ?_, fun s n w i hw => ?_⟩
  · rw [step_due he ha hf, runCommand_eq_exec hd]
  · exact runCommand_eq_exec (decodeTableWord_eq_some_iff.mp hw).2 s

/-- Settles O21: each event at the head of the agenda is handled on the state without it. -/
theorem eventsChangeOnlyWhatTheyName : Obligations.EventsChangeOnlyWhatTheyName := by
  intro s rest
  refine ⟨fun c ha => step_cons ha, fun ha hf => ?_, fun ha hf => ?_, step_nil⟩
  · rw [step_cons ha]
    exact deliverOldest_nil hf
  · rw [step_cons ha]
    exact awaitResult_nil hf

/-- Settles O22: a sample answers by whether `y` has a value. -/
theorem sampleWhileInputsChangeIsAnyValue : Obligations.SampleWhileInputsChangeIsAnyValue := by
  intro s rest ha
  rw [step_cons ha]
  exact ⟨fun v hy => sampleOutput_some hy, fun hy => sampleOutput_none hy⟩

/-- Reading is a fault as long as `y` has no value. -/
theorem runAgenda_readY_of_none {s : State} (hy : s.y = none) (rest : List Event) :
    runAgenda s (.readY :: rest) = .fault .readOfUndefinedY :=
  runAgenda_cons_fault (readOutput_none (s := { s with agenda := rest }) hy)

/-- A reset or the loss of power clears the unit, and the run goes on from there. -/
theorem runAgenda_cleared {e : Event} (he : e = .reset ∨ e = .powerCycle) (s : State) (rest : List Event) :
    runAgenda s (e :: rest) = runAgenda s.clear rest := by
  rcases he with rfl | rfl <;> exact (runAgenda_cons_next rfl).trans (runAgenda_agenda s.clear rest rest)

/-- Settles O19: the loss of power clears the unit, and a read then finds no value. -/
theorem lossOfPowerLosesTheOutput : Obligations.LossOfPowerLosesTheOutput := by
  intro s rest ha
  exact ⟨step_cons ha, (runAgenda_cleared (.inr rfl) s _).trans (runAgenda_readY_of_none rfl [])⟩

/-- With nothing in flight, due results change nothing, however many pass (assumption 19). -/
theorem runAgenda_replicate_deliver {s : State} (hf : s.inFlight = []) (n : Nat) :
    runAgenda s (List.replicate n .deliver) = .next { s with agenda := [] } := by
  induction n with
  | zero => rfl
  | succ n ih =>
    have hnone (rest : List Event) : handle .deliver { s with agenda := rest } = .next { s with agenda := rest } :=
      deliverOldest_nil hf
    rw [List.replicate_succ, runAgenda_cons_next (hnone _), runAgenda_agenda, ih]

/-- Settles O18: the reset clears the unit, the due results then change nothing, and a read finds no value. -/
theorem resetDiscardsOutputAndCommandsInFlight : Obligations.ResetDiscardsOutputAndCommandsInFlight := by
  refine ⟨rfl, rfl, fun s rest ha => step_cons ha, fun s n => ?_⟩
  have hdue := runAgenda_replicate_deliver s.clear_inFlight n
  refine ⟨{ s.clear with agenda := [] }, ?_, rfl, rfl, ?_⟩
  · rw [runAgenda_cleared (.inl rfl), hdue]
  · rw [runAgenda_cleared (.inl rfl), runAgenda_append_next hdue]
    exact runAgenda_readY_of_none rfl []

/-- A command accepted with nothing in flight gives its result when that is due. -/
theorem runAgenda_issue_deliver {s : State} {c : Command} {v : BitVec 32} (hf : s.inFlight = [])
    (hv : unitFunction c.toWord = some v) :
    runAgenda s [.issue c, .deliver] = .next { s with y := some v, inFlight := [], agenda := [] } := by
  have hflight : (s.accept c).inFlight = [c] := by simp [hf]
  exact (runAgenda_cons_next rfl).trans (runAgenda_deliver (s := { s.accept c with agenda := [.deliver] }) hflight hv)

/-- Settles O20: after the clearing nothing is in flight, and the command gives `F` of its word from every state. -/
theorem firstCommandAfterResetGivesItsResult : Obligations.FirstCommandAfterResetGivesItsResult := by
  intro s e c v he hv
  refine ⟨?_, step_presentNow_of_unitFunction hv State.reset⟩
  rw [runAgenda_cleared he, runAgenda_issue_deliver s.clear_inFlight hv]
  rfl

/-- A command presented once, with nothing in flight, and its result read. -/
theorem runAgenda_issue_deliver_readY {s : State} {c : Command} {v : BitVec 32} (hf : s.inFlight = [])
    (hv : unitFunction c.toWord = some v) :
    runAgenda s [.issue c, .deliver, .readY] =
      .next { s with y := some v, inFlight := [], agenda := [], reads := s.reads ++ [v] } :=
  runAgenda_append_next (runAgenda_issue_deliver hf hv) [.readY]

/-- Settles O23, by induction on the number of presentations: each leaves the value on `y` and nothing in flight. -/
theorem sameCommandGivesTheSameResultEachTime : Obligations.SameCommandGivesTheSameResultEachTime := by
  intro s c v n hf hv
  induction n generalizing s with
  | zero =>
    rw [hf]
    exact runAgenda_issue_deliver_readY hf hv
  | succ n ih =>
    rw [List.replicate_succ, List.flatten_cons, runAgenda_append_next (runAgenda_issue_deliver_readY hf hv), ih _ rfl, hf]
    simp [List.replicate_succ]

end Sys2Proof.Machine
end

section
/-! Words written out: the landmark Halves (10_state R30) and the widenings of 95_test_vectors. -/

namespace Sys2Proof.Machine

/-- The quiet bit is the upper half of the mantissa (00_scope R18). -/
theorem getLsbD_nine_iff_mag (h : Half) : h.getLsbD 9 = true ↔ 512 ≤ (mag16 h).toNat % 1024 := by
  have hbit : h.getLsbD 9 = decide (h.toNat / 512 % 2 = 1) := by
    rw [BitVec.getLsbD, Nat.testBit_eq_decide_div_mod_eq]
  rw [hbit, decide_eq_true_eq, mag16_toNat]
  omega

theorem isNaN16_of_mag {h : Half} (hlo : 0x7C01 ≤ (mag16 h).toNat) : isNaN16 h = true := (isNaN16_iff_mag h).mpr hlo

/-- Among the NaNs the quiet ones are the upper half of the magnitudes. -/
theorem isQuietNaN16_iff_mag (h : Half) : isQuietNaN16 h = true ↔ 0x7E00 ≤ (mag16 h).toNat := by
  have hlt := (mag16 h).isLt
  rw [isQuietNaN16, Bool.and_eq_true, isNaN16_iff_mag, getLsbD_nine_iff_mag]
  omega

@[simp] theorem signFactor_zero : signFactor 0 = 1 := if_neg (by decide)

theorem val16_of_positive_subnormal {h : Half} {m : Nat} (hc : class16 h = .subnormal) (hs : sign16 h = 0)
    (hm : (man16 h).toNat = m) : val16 h = .num (m * 2 ^ (-24 : ℤ)) := by
  rw [val16_of_subnormal hc, hs, hm, signFactor_zero, one_mul]

theorem val16_of_positive_normal {h : Half} {E m : Nat} (hc : class16 h = .normal) (hs : sign16 h = 0)
    (hE : (exp16 h).toNat = E) (hm : (man16 h).toNat = m) : val16 h = .num (2 ^ ((E : ℤ) - 15) * (1 + m / 1024)) := by
  rw [val16_of_normal hc, hs, hE, hm, signFactor_zero, one_mul]

/-- Settles O3: each landmark has the value of its class and fields, and the NaN ranges are ranges of the magnitude. -/
theorem landmarkHalfEncodings : Obligations.LandmarkHalfEncodings := by
  refine ⟨?_, by decide, ?_, by decide, ?_, by decide, ?_, ?_, val16_of_infinity (by decide), val16_of_infinity (by decide),
    fun h hlo hhi => ⟨isNaN16_of_mag hlo, ?_⟩, fun h hlo => ⟨isNaN16_of_mag (by omega), (isQuietNaN16_iff_mag h).mpr hlo⟩⟩
  · rw [val16_of_positive_subnormal (m := 1) (by decide) (by decide) (by decide)]
    norm_num
  · rw [val16_of_positive_subnormal (m := 1023) (by decide) (by decide) (by decide)]
    norm_num
  · rw [val16_of_positive_normal (E := 1) (m := 0) (by decide) (by decide) (by decide) (by decide)]
    norm_num
  · rw [val16_of_positive_normal (E := 15) (m := 0) (by decide) (by decide) (by decide) (by decide)]
    norm_num
  · rw [val16_of_positive_normal (E := 30) (m := 1023) (by decide) (by decide) (by decide) (by decide)]
    norm_num
  · rw [Bool.not_eq_true', ← Bool.not_eq_true, isQuietNaN16_iff_mag]
    omega

/-- Settles O33: each widening is computed from its Half. -/
theorem wideningsWrittenOut : Obligations.WideningsWrittenOut := by
  unfold Obligations.WideningsWrittenOut
  decide

end Sys2Proof.Machine
end
